-- ==== Sys2Proof/Word.lean ====
section
/-! DEFINITION. The widths of the LINM core: bytes and the two-valued types the block stores a code of. -/

namespace Sys2Proof

/-- A byte, 0 to 255 (R11). -/
abbrev Byte := BitVec 8

/-- The protocol version of a frame (R2, R25). The spec gives no meaning to any third value, so the type has two. -/
inductive Version where
  /-- LIN 1.x, classic checksum. -/
  | v1
  /-- LIN 2.x, enhanced checksum. -/
  | v2
deriving DecidableEq, Repr

/-- The frame type (R2, R26). -/
inductive FrameType where
  /-- The master sends the header and the data. -/
  | masterRequest
  /-- The master sends the header, a slave the data and the checksum. -/
  | slaveResponse
deriving DecidableEq, Repr

end Sys2Proof
end

