-- ==== Sys2Proof/Syntax.lean ====
section
/-! DEFINITION. The commands of the LINM core (R73), one constructor per row of the opcode table, with the fields each uses (R71,
R73). A field a command ignores (R72) is no part of its term. -/

namespace Sys2Proof

/-- The commands of R73. The operand fields are the raw fields of R71: `n` is the 4-bit length field and `arg` the 64-bit operand,
so that the reserved operand forms of R78 and R79 are terms too, and their meaning is the machine's to give. -/
inductive Instr where
  /-- OPEN, 0x1: the baud rate `arg[31:0]` (R141). -/
  | openTp (baud : BitVec 32)
  /-- CLOSE, 0x2 (R142). -/
  | closeTp
  /-- MREQ, 0x3 (R143). -/
  | mreq (v : Version) (id : BitVec 6) (n : BitVec 4) (arg : BitVec 64)
  /-- SRESP, 0x4 (R144). -/
  | sresp (v : Version) (id : BitVec 6) (n : BitVec 4)
  /-- STEP, 0x5: the handler (R150). -/
  | step
  /-- GETST, 0x6 (R170). -/
  | getst
  /-- GETERR, 0x7 (R171). -/
  | geterr
  /-- CLRERR, 0x8 (R172). -/
  | clrerr
  /-- RSTSM, 0x9 (R160). -/
  | rstsm
  /-- GETFRM, 0xA (R174). -/
  | getfrm
  /-- PID, 0xB (R120). -/
  | pid (id : BitVec 6)
  /-- CHK, 0xC (R121). -/
  | chk (v : Version) (id : BitVec 6) (n : BitVec 4) (arg : BitVec 64)
deriving DecidableEq, Repr

end Sys2Proof
end

