-- ==== Sys2Proof/WellFormed.lean ====
section
/-! DEFINITION. Which command terms are not reserved operand forms: the length check of R78 and the baud check of R79. -/

namespace Sys2Proof

/-- R71, R78: a length field above 8 is reserved. -/
abbrev lengthOk (n : BitVec 4) : Bool := n.toNat ≤ 8

/-- R79: baud rate zero is reserved. -/
abbrev baudOk (baud : BitVec 32) : Bool := baud != 0

/-- A command is well formed when its operands are not one of the reserved forms of R78 and R79. -/
def Instr.wf : Instr → Bool
  | .openTp baud => baudOk baud
  | .closeTp => true
  | .mreq _ _ n _ => lengthOk n
  | .sresp _ _ n => lengthOk n
  | .step => true
  | .getst => true
  | .geterr => true
  | .clrerr => true
  | .rstsm => true
  | .getfrm => true
  | .pid _ => true
  | .chk _ _ n _ => lengthOk n

/-- A request: MREQ or SRESP (R14). -/
def Instr.isRequest : Instr → Bool
  | .openTp _ => false
  | .closeTp => false
  | .mreq _ _ _ _ => true
  | .sresp _ _ _ => true
  | .step => false
  | .getst => false
  | .geterr => false
  | .clrerr => false
  | .rstsm => false
  | .getfrm => false
  | .pid _ => false
  | .chk _ _ _ _ => false

end Sys2Proof
end

