-- ==== Sys2Proof/Decode.lean ====
section
/-! DEFINITION. Decoding a command `(cmd, arg)` (R70 to R74), total, a reserved opcode rejected by name; and the encoder. -/

namespace Sys2Proof

/-- Why a command is not one of the table's. -/
inductive DecodeError where
  /-- `cmd[3:0]` is 0x0, 0xD, 0xE or 0xF (R78). -/
  | reservedOpcode (op : BitVec 4)
deriving DecidableEq, Repr

/-- One command as it stands on the command port (R70): the 16-bit command word and the 64-bit operand. -/
structure CommandWord where
  cmd : BitVec 16
  arg : BitVec 64
deriving DecidableEq, Repr

/-- `op = cmd[3:0]` (R71). -/
def opField (cmd : BitVec 16) : BitVec 4 := cmd.extractLsb' 0 4
/-- `v = cmd[4]`, read as a version (R71, R77). -/
def versionField (cmd : BitVec 16) : Version := if cmd.getLsbD 4 then .v2 else .v1
/-- `id = cmd[10:5]` (R71). -/
def idField (cmd : BitVec 16) : BitVec 6 := cmd.extractLsb' 5 6
/-- `n = cmd[14:11]` (R71). -/
def lenField (cmd : BitVec 16) : BitVec 4 := cmd.extractLsb' 11 4
/-- `baud = arg[31:0]` (R71, R54). -/
def baudField (arg : BitVec 64) : BitVec 32 := arg.extractLsb' 0 32

/-- The command a command word and operand stand for. `cmd[3:0]` alone tells the commands apart (R70); fields a command does not
use are not looked at (R72). A reserved operand form (R78, R79) decodes to a term that is not well formed. -/
def decode (cmd : BitVec 16) (arg : BitVec 64) : Except DecodeError Instr :=
  match (opField cmd).toNat with
  | 0x1 => .ok (.openTp (baudField arg))
  | 0x2 => .ok .closeTp
  | 0x3 => .ok (.mreq (versionField cmd) (idField cmd) (lenField cmd) arg)
  | 0x4 => .ok (.sresp (versionField cmd) (idField cmd) (lenField cmd))
  | 0x5 => .ok .step
  | 0x6 => .ok .getst
  | 0x7 => .ok .geterr
  | 0x8 => .ok .clrerr
  | 0x9 => .ok .rstsm
  | 0xA => .ok .getfrm
  | 0xB => .ok (.pid (idField cmd))
  | 0xC => .ok (.chk (versionField cmd) (idField cmd) (lenField cmd) arg)
  | _ => .error (.reservedOpcode (opField cmd))

/-- The opcode of R73. -/
def Instr.opcode : Instr → BitVec 4
  | .openTp _ => 0x1
  | .closeTp => 0x2
  | .mreq _ _ _ _ => 0x3
  | .sresp _ _ _ => 0x4
  | .step => 0x5
  | .getst => 0x6
  | .geterr => 0x7
  | .clrerr => 0x8
  | .rstsm => 0x9
  | .getfrm => 0xA
  | .pid _ => 0xB
  | .chk _ _ _ _ => 0xC

/-- The bit `v` of R77. -/
def versionBit : Version → BitVec 1
  | .v1 => 0
  | .v2 => 1

/-- A command word from its fields, `rsv` and unused fields 0 (R71, R81). -/
def packCmd (op : BitVec 4) (v : BitVec 1) (id : BitVec 6) (n : BitVec 4) : BitVec 16 :=
  (0 : BitVec 1) ++ n ++ id ++ v ++ op

/-- The words of a command (R71, R73, R81). -/
def encode : Instr → CommandWord
  | .openTp baud => ⟨packCmd 0x1 0 0 0, baud.setWidth 64⟩
  | .closeTp => ⟨packCmd 0x2 0 0 0, 0⟩
  | .mreq v id n arg => ⟨packCmd 0x3 (versionBit v) id n, arg⟩
  | .sresp v id n => ⟨packCmd 0x4 (versionBit v) id n, 0⟩
  | .step => ⟨packCmd 0x5 0 0 0, 0⟩
  | .getst => ⟨packCmd 0x6 0 0 0, 0⟩
  | .geterr => ⟨packCmd 0x7 0 0 0, 0⟩
  | .clrerr => ⟨packCmd 0x8 0 0 0, 0⟩
  | .rstsm => ⟨packCmd 0x9 0 0 0, 0⟩
  | .getfrm => ⟨packCmd 0xA 0 0 0, 0⟩
  | .pid id => ⟨packCmd 0xB 0 id 0, 0⟩
  | .chk v id n arg => ⟨packCmd 0xC (versionBit v) id n, arg⟩

/-- The command word bits a command uses: its opcode and the fields R73 lists for it (R71, R72). -/
def Instr.usedCmdBits : Instr → BitVec 16
  | .openTp _ => 0x000F
  | .closeTp => 0x000F
  | .mreq _ _ _ _ => 0x7FFF
  | .sresp _ _ _ => 0x7FFF
  | .step => 0x000F
  | .getst => 0x000F
  | .geterr => 0x000F
  | .clrerr => 0x000F
  | .rstsm => 0x000F
  | .getfrm => 0x000F
  | .pid _ => 0x07EF
  | .chk _ _ _ _ => 0x7FFF

/-- The operand bits a command's term keeps (R71, R73). Which bytes of `arg` MREQ and CHK then use, `n` says (R76). -/
def Instr.usedArgBits : Instr → BitVec 64
  | .openTp _ => 0x00000000FFFFFFFF
  | .closeTp => 0
  | .mreq _ _ _ _ => BitVec.allOnes 64
  | .sresp _ _ _ => 0
  | .step => 0
  | .getst => 0
  | .geterr => 0
  | .clrerr => 0
  | .rstsm => 0
  | .getfrm => 0
  | .pid _ => 0
  | .chk _ _ _ _ => BitVec.allOnes 64

/-- A command numbered as the opcode table numbers it: the command word in bits 15..0, the operand in bits 79..16. Bits from
`nbits` up are 0. -/
def wordsOfTable (nbits w : Nat) : CommandWord :=
  let u := w % 2 ^ nbits
  ⟨BitVec.ofNat 16 u, BitVec.ofNat 64 (u / 2 ^ 16)⟩

/-- What the decoder reads from a command so numbered. -/
def decodeTableWord (nbits w : Nat) : Option Instr :=
  (decode (wordsOfTable nbits w).cmd (wordsOfTable nbits w).arg).toOption

end Sys2Proof
end

