-- ==== Sys2Proof/Config.lean ====
section
/-! DEFINITION. What is fixed for one instance of the block: the fixed parameters of R9 and the open parameter of R10. -/

namespace Sys2Proof

/-- `SYNC` of R9: the sync byte. -/
abbrev syncByte : Byte := 0x55

/-- `BREAK_MARK` of R9: tx buffer byte 0. -/
abbrev breakMark : Byte := 0x00

/-- `MAX_DATA` of R9: the largest number of data bytes in a frame. -/
abbrev maxData : Nat := 8

/-- `BUF_SIZE` of R9: the capacity of each frame buffer, in bytes. -/
abbrev bufSize : Nat := 12

/-- `HDR_LEN` of R9: break marker, sync, PID. -/
abbrev hdrLen : Nat := 3

/-- `BITS_PER_BYTE` of R9. -/
abbrev bitsPerByte : Nat := 10

/-- The parameter of one instance, fixed for its whole lifetime (R10, R233). It is a parameter and not state (R35); it stands
beside the block in `State` so that a statement about every state is a statement about every legal value (log 7). -/
structure Config where
  /-- `TIMEOUT_PCT` of R10: the timeout safety factor in percent. -/
  timeoutPct : Nat
deriving DecidableEq, Repr

/-- The default of R10 (D15). -/
def Config.default : Config := ⟨200⟩

/-- The legal range of R10. -/
abbrev Config.legal (c : Config) : Prop := 100 ≤ c.timeoutPct ∧ c.timeoutPct ≤ 1000

end Sys2Proof
end

