-- ==== Sys2Proof/Machine/State.lean ====
section
/-! DEFINITION. Everything the machine holds, as plain data: the block's tuple of R35, the transport's state of R130, the ports. -/

namespace Sys2Proof.Machine

/-- A frame buffer: 12 bytes, index 0 first (R30). -/
abbrev Buf := Vector Byte 12

/-- Every byte 0x00 (R30, R35). -/
def Buf.zero : Buf := Vector.replicate 12 0x00

/-- The state of one LINM core, in the order of R35. `state`, `version` and `frameType` keep their 8 bits, so that the illegal
values exist to which R157, and the comparisons of R105 and R174, give a meaning (log 8, log 9). -/
structure Block where
  /-- The lifecycle state, one-hot when legal (R22). -/
  state : Byte
  /-- The latched error bitmask (R23). -/
  error : Byte
  /-- The baud rate of the last accepted OPEN (R24). -/
  baud : BitVec 32
  /-- The protocol version of the current frame, as its code (R25, R35). -/
  version : Byte
  /-- The frame type, as its code: `S.type` (R26, R35). -/
  frameType : Byte
  /-- The unprotected frame identifier (R27). -/
  id : BitVec 6
  /-- The number of data bytes (R28). -/
  numData : BitVec 4
  /-- The number of tx buffer bytes that make up the transmission (R29). -/
  txLen : BitVec 4
  /-- The number of bytes expected, echo included (R29). -/
  rxLen : BitVec 4
  /-- The number of bytes stored since the last accepted request (R31). -/
  rxCount : BitVec 4
  /-- `now` at the last accepted request (R32). -/
  tStart : BitVec 32
  /-- The timeout budget in microseconds (R32). -/
  timeoutUs : BitVec 32
  /-- What the block sends (R30). -/
  txBuf : Buf
  /-- What the block has received (R30). -/
  rxBuf : Buf
deriving DecidableEq, Repr

/-- OFF (R22). -/
abbrev stOff : Byte := 0x01
/-- IDLE (R22). -/
abbrev stIdle : Byte := 0x02
/-- BREAK (R22). -/
abbrev stBreak : Byte := 0x04
/-- BODY (R22). -/
abbrev stBody : Byte := 0x08
/-- DONE (R22). -/
abbrev stDone : Byte := 0x10

/-- V1 (R25). -/
abbrev verV1 : Byte := 0x01
/-- V2 (R25). -/
abbrev verV2 : Byte := 0x02

/-- MASTER_REQUEST (R26). -/
abbrev typeMaster : Byte := 0x01
/-- SLAVE_RESPONSE (R26). -/
abbrev typeSlave : Byte := 0x02

/-- The reset values of R35 and R230. -/
def Block.reset : Block where
  state := stOff
  error := 0x00
  baud := 0
  version := verV1
  frameType := typeMaster
  id := 0
  numData := 0
  txLen := 0
  rxLen := 0
  rxCount := 0
  tStart := 0
  timeoutUs := 0
  txBuf := Buf.zero
  rxBuf := Buf.zero

/-- The transport actions of R12 and R131 to R135, as the core takes them. -/
inductive TpAction where
  /-- `TP.open(b)` (R131). -/
  | tpOpen (baud : BitVec 32)
  /-- `TP.close()` (R131). -/
  | tpClose
  /-- `TP.write(bs)` (R132). -/
  | tpWrite (bs : List Byte)
  /-- `TP.read(k)` (R133). -/
  | tpRead (k : Nat)
  /-- `TP.drain()` (R134). -/
  | tpDrain
  /-- `TP.break()` (R135). -/
  | tpBreak
deriving DecidableEq, Repr

/-- The transport agent (R130), with a record of what the core has asked of it. -/
structure Transport where
  /-- The received bytes, oldest first (R130). -/
  rxFifo : List Byte
  /-- The break has registered on the bus (R130, R135). -/
  breakDone : Bool
  /-- The transport is open (R130, R131). -/
  isOpen : Bool
  /-- Every action the core has taken, oldest first: the model's own record (log 4). -/
  actions : List TpAction
deriving DecidableEq, Repr

/-- The transport of the start state S0 (log 13). -/
def Transport.reset : Transport where
  rxFifo := []
  breakDone := false
  isOpen := false
  actions := []

/-- What happens to the transport between two commands, by its own behaviour or its owner's. -/
inductive TpEvent where
  /-- The transport appends a byte to its FIFO (R130). -/
  | rx (b : Byte)
  /-- The break registers on the bus (R130, R135). -/
  | breakRegistered
  /-- What the transport makes of its FIFO on an open or a close (R131, log 11), a close behind the core's back included (log 12). -/
  | fifoAfter (bs : List Byte)
  /-- The transport is closed behind the core's back (R145, log 12). -/
  | closedByOwner
deriving DecidableEq, Repr

/-- What the environment can do between two commands. -/
inductive EnvEvent where
  /-- A step of the transport agent (R130). -/
  | transport (e : TpEvent)
  /-- The block is reset, the transport is not (R230, R232, log 13). -/
  | coreReset
deriving DecidableEq, Repr

/-- One command on the command port: the environment's steps before it (R130), its words (R70) and its time input (R138). -/
structure PortEntry where
  env : List EnvEvent
  cmd : BitVec 16
  arg : BitVec 64
  now : BitVec 32
deriving DecidableEq, Repr

/-- The machine: the block, the transport it borrows, its ports and its parameter. -/
structure State where
  /-- The block's own state (R35). -/
  blk : Block
  /-- The transport (R130). -/
  tp : Transport
  /-- The time input sampled for the command being run (R12, R138, log 3). -/
  now : BitVec 32
  /-- What the last command put on the response port (R75, log 3). -/
  response : List Byte
  /-- The commands still to come, oldest first (R70, log 1). -/
  port : List PortEntry
  /-- A reserved encoding has been issued in this run; never cleared (R78, R206, log 5). -/
  refused : Bool
  /-- The parameter of this machine; no step writes it (R10, R35, log 7). -/
  cfg : Config
deriving DecidableEq, Repr

/-- Why the machine stops. -/
inductive Fault where
  /-- `ModelFault(TransportClosed)`: raised by MREQ and SRESP, accepted while the transport is closed (R140, R145). Safe: the
  hardware goes on, with a transport whose behaviour is undefined (log 6). -/
  | transportClosed
deriving DecidableEq, Repr

/-- Why the model gives an instruction no meaning. -/
inductive Refusal where
  /-- The instruction has no meaning yet: raised by a refused arm of `exec`. Safe. No arm raises it in this model. -/
  | notModelled (mnemonic : String)
deriving DecidableEq, Repr

/-- The machine right after reset (R35, R230), with the start state S0 of the transport (log 13) and no command waiting. -/
def State.reset : State where
  blk := Block.reset
  tp := Transport.reset
  now := 0
  response := []
  port := []
  refused := false
  cfg := Config.default

end Sys2Proof.Machine
end

