-- ==== Sys2Proof/Machine/Operands.lean ====
section
/-! DEFINITION. The operand forms of the commands (R71, R76, R77) and the codes that the version and type registers hold (R25, R26). -/

namespace Sys2Proof.Machine

/-- Data byte `k` of the operand: `arg[8k+7:8k]` (R54). -/
def argByte (arg : BitVec 64) (k : Nat) : Byte := arg.extractLsb' (8 * k) 8

/-- The data sequence of MREQ and CHK: the first `n` bytes of `arg` (R76). -/
def operandData (n : BitVec 4) (arg : BitVec 64) : List Byte := (List.range n.toNat).map (argByte arg)

/-- The code that the type register holds for a frame type (R26). -/
def frameTypeCode : FrameType → Byte
  | .masterRequest => typeMaster
  | .slaveResponse => typeSlave

/-- The code that the version register holds for a version (R25). No response carries it (R177). -/
def versionCode : Version → Byte
  | .v1 => verV1
  | .v2 => verV2

/-- The version register as the checksum reads it: `S.version = V2`, or otherwise (R105). DEDUCED for a code that is neither V1 nor
V2, which no run holds (log 9). -/
def readVersion (code : Byte) : Version := if code = verV2 then .v2 else .v1

end Sys2Proof.Machine
end

