-- ==== Sys2Proof/Machine/Frame.lean ====
section
/-! DEFINITION. The pure functions of 40_codec.md: PID, CHKSUM, the frame buffer builders and checkFrame; and buffer access. -/

namespace Sys2Proof.Machine

/-! Buffer access (R30, R52, R56). -/

/-- Byte `i` of a buffer. No rule reads an index above 11 (R56); such a read, in a state no run reaches, gives 0x00 (log 10). -/
def Buf.at (b : Buf) (i : Nat) : Byte := b.toList.getD i 0x00

/-- Bytes `lo .. lo + len - 1` of a buffer. -/
def Buf.slice (b : Buf) (lo len : Nat) : List Byte := (List.range len).map fun k => b.at (lo + k)

/-- The buffer that starts with `bs` and is 0x00 beyond (R110, R111). -/
def Buf.ofBytes (bs : List Byte) : Buf :=
  ⟨((List.range 12).map fun i => bs.getD i 0x00).toArray, by simp⟩

/-- `RxBuf[at + j] <- bs[j]` for every `j` (R154). A write beyond index 11 does not happen (R56, log 10). -/
def Buf.store (b : Buf) (start : Nat) : List Byte → Buf
  | [] => b
  | v :: bs => Buf.store (b.setIfInBounds start v) (start + 1) bs

/-! The protected identifier (R100). -/

/-- `p0` of R100. -/
def parity0 (id : BitVec 6) : Bool :=
  id.getLsbD 0 ^^ id.getLsbD 1 ^^ id.getLsbD 2 ^^ id.getLsbD 4

/-- `p1` of R100. -/
def parity1 (id : BitVec 6) : Bool :=
  !(id.getLsbD 1 ^^ id.getLsbD 3 ^^ id.getLsbD 4 ^^ id.getLsbD 5)

/-- `PID(id)` (R100). -/
def pid (id : BitVec 6) : Byte :=
  id.setWidth 8 ||| ((BitVec.ofBool (parity0 id)).setWidth 8 <<< 6) ||| ((BitVec.ofBool (parity1 id)).setWidth 8 <<< 7)

/-! The checksum (R104 to R108). -/

/-- `isDiag(id)` of R105: the unprotected comparison (D9). -/
def isDiag (id : BitVec 6) : Bool := id == 0x3C || id == 0x3D

/-- The seed of the accumulator (R105). -/
def seed (version : Version) (id : BitVec 6) : Nat :=
  if version = .v2 ∧ isDiag id = false then (pid id).toNat else 0

/-- One addition with end-around carry (R107). -/
def addCarry (acc : Nat) (b : Byte) : Nat :=
  let sum := acc + b.toNat
  if sum > 255 then sum - 255 else sum

/-- `CHKSUM(version, id, data)` (R104, R108). -/
def chksum (version : Version) (id : BitVec 6) (data : List Byte) : Byte :=
  BitVec.ofNat 8 (255 - data.foldl addCarry (seed version id))

/-! The frame buffer builders (R110, R111). -/

/-- The header: break marker, sync, PID (R110, R111). -/
def headerBytes (id : BitVec 6) : List Byte := [breakMark, syncByte, pid id]

/-- `buildMasterRequest` (R110): the tx buffer and both lengths. -/
def buildMasterRequest (version : Version) (id : BitVec 6) (data : List Byte) (b : Block) : Block :=
  { b with
    txBuf := Buf.ofBytes (headerBytes id ++ data ++ [chksum version id data])
    txLen := BitVec.ofNat 4 (4 + data.length)
    rxLen := BitVec.ofNat 4 (4 + data.length) }

/-- `buildSlaveResponse` (R111): the tx buffer and both lengths. -/
def buildSlaveResponse (id : BitVec 6) (n : BitVec 4) (b : Block) : Block :=
  { b with
    txBuf := Buf.ofBytes (headerBytes id)
    txLen := BitVec.ofNat 4 hdrLen
    rxLen := BitVec.ofNat 4 (3 + n.toNat + 1) }

/-! The echo and checksum validator (R112). -/

/-- What checkFrame returns (R112). -/
inductive FrameCheck where
  | ok
  | echo
  | checksum
deriving DecidableEq, Repr

/-- Every sent byte came back (R112). -/
def echoMatches (b : Block) : Bool :=
  (List.range b.txLen.toNat).all fun i => b.rxBuf.at i == b.txBuf.at i

/-- `rdata` of R112: `RxBuf[3 .. S.rxLen-2]`. -/
def receivedData (b : Block) : List Byte := b.rxBuf.slice 3 (b.rxLen.toNat - 4)

/-- `checkFrame()` (R112, R113, R114). -/
def checkFrame (b : Block) : FrameCheck :=
  if echoMatches b = false then .echo
  else if chksum (readVersion b.version) b.id (receivedData b) ≠ b.rxBuf.at (b.rxLen.toNat - 1) then .checksum
  else .ok

end Sys2Proof.Machine
end

