-- ==== Sys2Proof/Machine/Flags.lean ====
section
/-! DEFINITION. The error bits (R23, R202), and which bit a failed frame check stands for (R155). -/

namespace Sys2Proof.Machine

/-- STATE (R23): a request while not IDLE. -/
abbrev errState : Byte := 0x01
/-- ECHO (R23): a byte read back differs from the byte sent. -/
abbrev errEcho : Byte := 0x02
/-- TIMEOUT (R23): the budget passed first. -/
abbrev errTimeout : Byte := 0x04
/-- CHECKSUM (R23): the received checksum differs from the recomputed one. -/
abbrev errChecksum : Byte := 0x08
/-- MISC (R23): a state value outside the defined set. -/
abbrev errMisc : Byte := 0x80

/-- `latch(E)` on the error register (R201). -/
def latchError (error e : Byte) : Byte := error ||| e

/-- The bit that a result of checkFrame latches: none for OK (R155). -/
def frameCheckError : FrameCheck → Byte
  | .ok => 0x00
  | .echo => errEcho
  | .checksum => errChecksum

end Sys2Proof.Machine
end

