-- ==== Sys2Proof/Machine/Ops.lean ====
section
/-! DEFINITION. The operations the meanings share: the transport actions, the timeout, the response, error entry and its exit,
acceptance and rejection of a request, the ignoring of a reserved encoding. -/

namespace Sys2Proof.Machine

/-! The transport actions (R131 to R135). Each is recorded (log 4). -/

/-- Record one action. -/
def Transport.record (tp : Transport) (a : TpAction) : Transport := { tp with actions := tp.actions ++ [a] }

/-- `TP.open(b)` (R131). -/
def Transport.openAt (baud : BitVec 32) (tp : Transport) : Transport :=
  { tp with isOpen := true }.record (.tpOpen baud)

/-- `TP.close()` (R131). -/
def Transport.shut (tp : Transport) : Transport :=
  { tp with isOpen := false }.record .tpClose

/-- `TP.write(bs)` (R132): all bytes are accepted, in order. -/
def Transport.write (bs : List Byte) (tp : Transport) : Transport := tp.record (.tpWrite bs)

/-- `TP.avail()` (R133). -/
def Transport.avail (tp : Transport) : Nat := tp.rxFifo.length

/-- The bytes `TP.read(k)` returns (R133). -/
def Transport.readBytes (k : Nat) (tp : Transport) : List Byte := tp.rxFifo.take k

/-- The transport after `TP.read(k)` (R133). -/
def Transport.read (k : Nat) (tp : Transport) : Transport :=
  { tp with rxFifo := tp.rxFifo.drop k }.record (.tpRead k)

/-- `TP.drain()` (R134). -/
def Transport.drain (tp : Transport) : Transport :=
  { tp with rxFifo := tp.rxFifo.drop tp.avail }.record .tpDrain

/-- `TP.break()` (R135). -/
def Transport.startBreak (tp : Transport) : Transport :=
  { tp with breakDone := false }.record .tpBreak

/-! The timeout (R137, R138). -/

/-- `byteTimeUs` of R137, 0 for baud 0. -/
def byteTimeUs (baud : BitVec 32) : Nat := (bitsPerByte * 1000000) / baud.toNat

/-- `timeoutUs` of R137, in exact naturals. -/
def timeoutNat (rxLen : BitVec 4) (baud : BitVec 32) (pct : Nat) : Nat :=
  (rxLen.toNat * byteTimeUs baud * pct) / 100

/-- `timeoutUs` of R137 as the 32-bit register holds it. -/
def timeoutBudget (rxLen : BitVec 4) (baud : BitVec 32) (cfg : Config) : BitVec 32 :=
  BitVec.ofNat 32 (timeoutNat rxLen baud cfg.timeoutPct)

/-- `(now - S.tStart) mod 2^32` (R138). -/
def elapsed (s : State) : BitVec 32 := s.now - s.blk.tStart

/-- `timedOut` of R138: a strict, unsigned comparison. -/
def timedOut (s : State) : Bool := s.blk.timeoutUs.ult (elapsed s)

/-! The response port and small updates. -/

/-- `respond(bs)` (R12). -/
def respond (bs : List Byte) (s : State) : State := { s with response := bs }

/-- `S.state <- v` (R12). -/
def setState (v : Byte) (s : State) : State := { s with blk := { s.blk with state := v } }

/-- `respond([S.state])` with the state after the command (R75). -/
def respondState (s : State) : State := respond [s.blk.state] s

/-- `latch(E)` (R201). -/
def latch (e : Byte) (s : State) : State := { s with blk := { s.blk with error := latchError s.blk.error e } }

/-! Error entry, in place of taking an exception (R206), and the two exits, in place of a return from one (R207). -/

/-- A fault is detected: the bit is latched and the state becomes DONE; nothing else is saved (R206). -/
def enterError (e : Byte) (s : State) : State := setState stDone (latch e s)

/-- The state returns to IDLE (R160, R207). -/
def leaveToIdle (s : State) : State := setState stIdle s

/-- The error is cleared (R172, R207). -/
def clearError (s : State) : State := { s with blk := { s.blk with error := 0x00 } }

/-! Reserved encodings (R78, R79). -/

/-- What the hardware does with a reserved encoding: no state change, no transport action, no error, an empty response (R78,
R79). The run is marked refused, and the mark is never cleared (R78, R206, log 5). -/
def ignoreReserved (s : State) : State := { s with response := [], refused := true }

/-! Requests (R139, R140). -/

/-- The entry guard: a request while not IDLE (R139). -/
def rejectRequest (s : State) : State := respond [stDone] (enterError errState s)

/-- The frame a request of a given type builds (R110, R111). -/
def buildFrame (kind : FrameType) (version : Version) (id : BitVec 6) (n : BitVec 4) (data : List Byte) (b : Block) : Block :=
  match kind with
  | .masterRequest => buildMasterRequest version id data b
  | .slaveResponse => buildSlaveResponse id n b

/-- What an accepted request makes of the block, up to the transport's part (R140). -/
def acceptedBlock (kind : FrameType) (version : Version) (id : BitVec 6) (n : BitVec 4) (data : List Byte) (s : State) : Block :=
  let framed := buildFrame kind version id n data
    { s.blk with error := 0x00, frameType := frameTypeCode kind, version := versionCode version, id := id, numData := n }
  { framed with
    rxBuf := Buf.zero
    rxCount := 0
    tStart := s.now
    timeoutUs := timeoutBudget framed.rxLen framed.baud s.cfg }

/-- An accepted request once the transport is known to be open: drain, then break, then BREAK (R140). -/
def startTransaction (kind : FrameType) (version : Version) (id : BitVec 6) (n : BitVec 4) (data : List Byte) (s : State) : State :=
  respond [stBreak] (setState stBreak
    { s with blk := acceptedBlock kind version id n data s, tp := s.tp.drain.startBreak })

/-- `acceptRequest` (R140), with the model fault of R145. -/
def acceptRequest (kind : FrameType) (version : Version) (id : BitVec 6) (n : BitVec 4) (data : List Byte) (s : State) :
    Host.Outcome State Fault Refusal :=
  if s.tp.isOpen then .next (startTransaction kind version id n data s) else .fault .transportClosed

/-- A request with `n <= 8`: rejected unless IDLE (R139), else accepted (R140). -/
def request (kind : FrameType) (version : Version) (id : BitVec 6) (n : BitVec 4) (data : List Byte) (s : State) :
    Host.Outcome State Fault Refusal :=
  if s.blk.state ≠ stIdle then .next (rejectRequest s) else acceptRequest kind version id n data s

/-! The environment's steps between commands (R130, R131, R135, R145, R230). -/

/-- An action after which the transport's FIFO is what the transport makes of it (R131). -/
def TpAction.opensOrCloses : TpAction → Bool
  | .tpOpen _ => true
  | .tpClose => true
  | .tpWrite _ => false
  | .tpRead _ => false
  | .tpDrain => false
  | .tpBreak => false

/-- One step of the transport. A break registers only after a `TP.break()` (R130). The FIFO is replaced only when the core's last
action opened or closed the transport (R131, log 11), or while the transport is closed, by the core or behind its back (log 12).
DESIGN CHOICE: a close behind the core's back itself leaves `rxFifo` and `breakDone` (log 12). -/
def Transport.react (e : TpEvent) (tp : Transport) : Transport :=
  match e with
  | .rx b => { tp with rxFifo := tp.rxFifo ++ [b] }
  | .breakRegistered => if tp.actions.contains .tpBreak then { tp with breakDone := true } else tp
  | .fifoAfter bs => if !tp.isOpen || tp.actions.getLast?.any TpAction.opensOrCloses then { tp with rxFifo := bs } else tp
  | .closedByOwner => { tp with isOpen := false }

/-- One step of the environment. The transport never changes the block (R130), and a reset of the block leaves the transport
alone (R232). -/
def envStep (s : State) (e : EnvEvent) : State :=
  match e with
  | .transport te => { s with tp := s.tp.react te }
  | .coreReset => { s with blk := Block.reset }

/-- The environment's steps before a command, in order. -/
def envSteps (es : List EnvEvent) (s : State) : State := es.foldl envStep s

/-- What a correctly working bus delivers when a break completes: exactly one byte, 0x00, and the break registers (R135). -/
def breakCompletes : List EnvEvent := [.transport (.rx breakMark), .transport .breakRegistered]

/-! Taking a command from the port (R57, R70). -/

/-- What the port offers the next step. -/
inductive Offer where
  /-- No command is waiting. -/
  | waiting (s : State)
  /-- A command, and the machine as the command samples it. -/
  | command (w : CommandWord) (s : State)

/-- The machine as a command samples it: the environment's steps before it are done, `now` is sampled once (R12, R57), and the
command has left the port. -/
def sample (c : PortEntry) (rest : List PortEntry) (s : State) : State :=
  { envSteps c.env { s with port := rest } with now := c.now }

/-- Take the next command. With none waiting the block takes no action (R231). -/
def offer (s : State) : Offer :=
  match s.port with
  | [] => .waiting s
  | c :: rest => .command ⟨c.cmd, c.arg⟩ (sample c rest s)

/-- Put one command in front of the port. -/
def offerNext (w : CommandWord) (s : State) : State :=
  { s with port := ⟨[], w.cmd, w.arg, s.now⟩ :: s.port }

end Sys2Proof.Machine
end

