-- ==== Sys2Proof/Machine/Codec.lean ====
section
/-! DEFINITION. The codec commands PID and CHK (40_codec.md section 5). -/

namespace Sys2Proof.Machine

/-- PID (R120). -/
def execPid (id : BitVec 6) (s : State) : Host.Outcome State Fault Refusal :=
  .next (respond [pid id] s)

/-- CHK (R121); `n > 8` is reserved (R78). -/
def execChk (v : Version) (id : BitVec 6) (n : BitVec 4) (arg : BitVec 64) (s : State) : Host.Outcome State Fault Refusal :=
  if lengthOk n then .next (respond [chksum v id (operandData n arg)] s) else .next (ignoreReserved s)

end Sys2Proof.Machine
end

