-- ==== Sys2Proof/Machine/Status.lean ====
section
/-! DEFINITION. The status commands and the frame read-out: GETST, GETERR, CLRERR, GETFRM (42_status.md). -/

namespace Sys2Proof.Machine

/-- GETST (R170). -/
def execGetst (s : State) : Host.Outcome State Fault Refusal := .next (respondState s)

/-- GETERR (R171). -/
def execGeterr (s : State) : Host.Outcome State Fault Refusal := .next (respond [s.blk.error] s)

/-- CLRERR (R172). -/
def execClrerr (s : State) : Host.Outcome State Fault Refusal := .next (respond [] (clearError s))

/-- The data bytes GETFRM gives: sent data of a master request, received data of a slave response (R174, R175). -/
def frameData (b : Block) : List Byte :=
  if b.frameType = typeMaster then b.txBuf.slice 3 b.numData.toNat else b.rxBuf.slice 3 b.numData.toNat

/-- The response of GETFRM (R174). -/
def frameResponse (b : Block) : List Byte :=
  [b.frameType, b.id.setWidth 8, b.numData.setWidth 8] ++ frameData b

/-- GETFRM (R174). -/
def execGetfrm (s : State) : Host.Outcome State Fault Refusal := .next (respond (frameResponse s.blk) s)

end Sys2Proof.Machine
end

