-- ==== Sys2Proof/Machine/Transaction.lean ====
section
/-! DEFINITION. The commands that drive the transaction machine: OPEN, CLOSE, MREQ, SRESP, STEP, RSTSM (41_transaction.md). -/

namespace Sys2Proof.Machine

/-- OPEN (R141); baud 0 is reserved (R79). -/
def execOpen (baud : BitVec 32) (s : State) : Host.Outcome State Fault Refusal :=
  if baudOk baud then
    .next (respond [] { s with tp := s.tp.openAt baud, blk := { s.blk with baud := baud, state := stIdle } })
  else .next (ignoreReserved s)

/-- CLOSE (R142). -/
def execClose (s : State) : Host.Outcome State Fault Refusal :=
  .next (respond [] (setState stOff { s with tp := s.tp.shut }))

/-- MREQ (R143); `n > 8` is reserved (R78). -/
def execMreq (v : Version) (id : BitVec 6) (n : BitVec 4) (arg : BitVec 64) (s : State) : Host.Outcome State Fault Refusal :=
  if lengthOk n then request .masterRequest v id n (operandData n arg) s else .next (ignoreReserved s)

/-- SRESP (R144); `n > 8` is reserved (R78). -/
def execSresp (v : Version) (id : BitVec 6) (n : BitVec 4) (s : State) : Host.Outcome State Fault Refusal :=
  if lengthOk n then request .slaveResponse v id n [] s else .next (ignoreReserved s)

/-- STEP in BREAK (R153): a completed break beats the timeout. -/
def stepBreak (s : State) : State :=
  if s.tp.breakDone then
    setState stBody { s with tp := s.tp.write (s.blk.txBuf.slice 1 (s.blk.txLen.toNat - 1)) }
  else if timedOut s then enterError errTimeout s
  else s

/-- The reception part of STEP in BODY (R154). -/
def receive (s : State) : State :=
  let k := min s.tp.avail (s.blk.rxLen.toNat - s.blk.rxCount.toNat)
  { s with
    tp := s.tp.read k
    blk := { s.blk with
      rxBuf := s.blk.rxBuf.store s.blk.rxCount.toNat (s.tp.readBytes k)
      rxCount := s.blk.rxCount + BitVec.ofNat 4 k } }

/-- Completion of STEP in BODY (R155): the frame check's result is latched. -/
def concludeFrame (s : State) : State :=
  match checkFrame s.blk with
  | .ok => setState stDone s
  | r => enterError (frameCheckError r) s

/-- STEP in BODY once the bytes are in (R155, R156): completion beats the timeout. -/
def concludeBody (s : State) : State :=
  if s.blk.rxCount = s.blk.rxLen then concludeFrame s
  else if s.blk.rxCount.toNat < s.blk.rxLen.toNat ∧ timedOut s then enterError errTimeout s
  else s

/-- What STEP makes of the machine, by the state it finds (R150 to R157). -/
def advance (s : State) : State :=
  if s.blk.state = stOff then s
  else if s.blk.state = stIdle then s
  else if s.blk.state = stDone then s
  else if s.blk.state = stBreak then stepBreak s
  else if s.blk.state = stBody then concludeBody (receive s)
  else enterError errMisc s

/-- STEP (R150). -/
def execStep (s : State) : Host.Outcome State Fault Refusal :=
  .next (respondState (advance s))

/-- RSTSM (R160). -/
def execRstsm (s : State) : Host.Outcome State Fault Refusal :=
  .next (respond [] (leaveToIdle s))

end Sys2Proof.Machine
end

