-- ==== Sys2Proof/Machine/Dispatch.lean ====
section
/-! DEFINITION. One arm per command of R73. -/

namespace Sys2Proof.Machine

-- The meaning of one command.
def exec (i : Instr) (s : State) : Host.Outcome State Fault Refusal :=
  match i with
  | .openTp baud => Sys2Proof.Machine.execOpen baud s
  | .closeTp => Sys2Proof.Machine.execClose s
  | .mreq v id n arg => Sys2Proof.Machine.execMreq v id n arg s
  | .sresp v id n => Sys2Proof.Machine.execSresp v id n s
  | .step => Sys2Proof.Machine.execStep s
  | .getst => Sys2Proof.Machine.execGetst s
  | .geterr => Sys2Proof.Machine.execGeterr s
  | .clrerr => Sys2Proof.Machine.execClrerr s
  | .rstsm => Sys2Proof.Machine.execRstsm s
  | .getfrm => Sys2Proof.Machine.execGetfrm s
  | .pid id => Sys2Proof.Machine.execPid id s
  | .chk v id n arg => Sys2Proof.Machine.execChk v id n arg s

end Sys2Proof.Machine
end

