-- ==== Sys2Proof/Machine/Step.lean ====
section
/-! DEFINITION. One step of the machine: the next command of the port is taken, decoded and run (R4, R57). -/

namespace Sys2Proof.Machine

/-- One step: exactly one command (R4). A reserved opcode is ignored (R78); with no command waiting nothing happens (R231). -/
def step (s : State) : Host.Outcome State Fault Refusal :=
  match offer s with
  | .waiting s' => .next s'
  | .command w s' =>
    match decode w.cmd w.arg with
    | .ok i => exec i s'
    | .error _ => .next (ignoreReserved s')

/-- `s` with the command so numbered in front of its port, at the present time, so that the next step takes it (log 1). -/
def State.withFetchWord (s : State) (nbits w : Nat) : State := offerNext (wordsOfTable nbits w) s

end Sys2Proof.Machine
end

