-- ==== Sys2Proof/Machine/Blocking.lean ====
section
/-! DEFINITION. The blocking wrappers MREQB, SRESPB and WAITDONE: host-level sequences of real commands (R83, R178, R179). -/

namespace Sys2Proof.Machine

/-- What the environment does before one command of the host, and the time the command is given at (R130, R138). -/
structure Draw where
  env : List EnvEvent
  now : BitVec 32
deriving DecidableEq, Repr

/-- The host issues one command now: it goes in front of the port, and the machine takes it (R4, R70). -/
def issue (i : Instr) (d : Draw) (s : State) : Host.Outcome State Fault Refusal :=
  step { s with port := ⟨d.env, (encode i).cmd, (encode i).arg, d.now⟩ :: s.port }

/-- How far a blocking sequence has come. -/
inductive Blocking (α : Type) where
  /-- The sequence has ended, with its result and the machine it leaves. -/
  | finished (result : α) (s : State)
  /-- The environment's draws are used up and the machine is not DONE (R180). -/
  | running (s : State)
  /-- A command of the sequence faulted. -/
  | fault (r : Fault)
  /-- A command of the sequence was refused. -/
  | refused (r : Refusal)
deriving DecidableEq, Repr

/-- Go on with a sequence that has ended. -/
def Blocking.andThen {α β : Type} (x : Blocking α) (f : α → State → Blocking β) : Blocking β :=
  match x with
  | .finished r s => f r s
  | .running s => .running s
  | .fault r => .fault r
  | .refused r => .refused r

/-- Issue a command; the result is its response (R75). -/
def issueFor (i : Instr) (d : Draw) (s : State) : Blocking (List Byte) :=
  match issue i d s with
  | .next t => .finished t.response t
  | .fault r => .fault r
  | .refused r => .refused r

/-- `while r != [DONE]: r = STEP`, where `r` is the last response (R178). One draw a STEP (log 14). -/
def pollDone : List Draw → State → Blocking Unit
  | [], s => if s.response = [stDone] then .finished () s else .running s
  | d :: ds, s =>
    if s.response = [stDone] then .finished () s
    else
      match issue .step d s with
      | .next t => pollDone ds t
      | .fault r => .fault r
      | .refused r => .refused r

/-- WAITDONE: STEP repeated until it responds [DONE] (R83). -/
def waitDone (d : Draw) (ds : List Draw) (s : State) : Blocking Unit :=
  (issueFor .step d s).andThen fun _ t => pollDone ds t

/-- MREQB (R178): the result is GETERR's response. -/
def mreqb (v : Version) (id : BitVec 6) (n : BitVec 4) (arg : BitVec 64) (req : Draw) (polls : List Draw) (err : Draw)
    (s : State) : Blocking (List Byte) :=
  (issueFor (.mreq v id n arg) req s).andThen fun _ t =>
  (pollDone polls t).andThen fun _ u =>
  issueFor .geterr err u

/-- SRESPB (R179): the result is GETERR's response and the data bytes of GETFRM's. DESIGN CHOICE (log 14): where GETFRM gives an
old frame with fewer than `n` data bytes, `f[3 .. 2+n]` is the bytes there are. -/
def srespb (v : Version) (id : BitVec 6) (n : BitVec 4) (req : Draw) (polls : List Draw) (err frm : Draw) (s : State) :
    Blocking (List Byte × List Byte) :=
  (issueFor (.sresp v id n) req s).andThen fun _ t =>
  (pollDone polls t).andThen fun _ u =>
  (issueFor .geterr err u).andThen fun e w =>
  (issueFor .getfrm frm w).andThen fun f x =>
  .finished (e, (f.drop 3).take n.toNat) x

end Sys2Proof.Machine
end

