-- ==== Sys2Proof/Safety.lean ====
section
/-! DEFINITION. What claims about runs speak of: success (R204), the validity of a read-out (R240), the invariants of R22, R23,
R33, R34, R37, R60, R175 and R205, and premises about the environment. -/

namespace Sys2Proof.Machine

/-- The five legal state values (R22). -/
abbrev Block.legalState (b : Block) : Prop := b.state ∈ [stOff, stIdle, stBreak, stBody, stDone]

/-- The legal codes of the version and type registers (R25, R26). -/
abbrev Block.legalCodes (b : Block) : Prop := b.version ∈ [verV1, verV2] ∧ b.frameType ∈ [typeMaster, typeSlave]

/-- A transaction is in flight (R14). -/
abbrev Block.inTransaction (b : Block) : Prop := b.state = stBreak ∨ b.state = stBody

/-- The values the error register can hold (R205). -/
abbrev Block.errorReachable (b : Block) : Prop :=
  b.error ∈ [0x00, 0x01, 0x02, 0x03, 0x04, 0x05, 0x08, 0x09]

/-- The relations between the frame's fields after an accepted request (R33). -/
abbrev Block.framed (b : Block) : Prop :=
  b.numData.toNat ≤ maxData ∧ b.rxLen.toNat = 4 + b.numData.toNat ∧
    b.txLen.toNat = (if b.frameType = typeMaster then 4 + b.numData.toNat else 3) ∧
    b.rxCount.toNat ≤ b.rxLen.toNat

/-- The lengths before the first accepted request (R34). -/
abbrev Block.fresh (b : Block) : Prop := b.numData = 0 ∧ b.txLen = 0 ∧ b.rxLen = 0 ∧ b.rxCount = 0

/-- The control invariant: a legal state (R37), legal codes of version and type (R25, R26), a reachable error value, none yet while a transaction is in flight (R205), and the
lengths of R33, or of R34 before the first accepted request, when no transaction is in flight. -/
abbrev Block.Inv (b : Block) : Prop :=
  b.legalState ∧ b.legalCodes ∧ b.errorReachable ∧ (b.inTransaction → b.error = 0x00 ∧ b.framed) ∧ (b.framed ∨ b.fresh)

/-- The control invariant of a machine. -/
abbrev State.Inv (s : State) : Prop := s.blk.Inv

/-- The buffer invariant: the tx buffer holds the header and, for a master request, the checksum of its own data (R110, R111), and
the rx bytes not yet received are 0x00 (R140, R175). -/
abbrev Block.buffersSound (b : Block) : Prop :=
  (b.framed → b.txBuf.slice 0 3 = headerBytes b.id ∧
    (b.frameType = typeMaster →
      b.txBuf.at (3 + b.numData.toNat) = chksum (readVersion b.version) b.id (b.txBuf.slice 3 b.numData.toNat))) ∧
  ∀ i, b.rxCount.toNat ≤ i → b.rxBuf.at i = 0x00

/-- The order of a transaction's actions (R60): in BREAK the drain and the break are the last actions; in BODY they are followed by
one write of the frame after the break marker, and then by reads only. -/
def State.ordered (s : State) : Prop :=
  (s.blk.state = stBreak → [.tpDrain, .tpBreak] <:+ s.tp.actions) ∧
  (s.blk.state = stBody → ∃ ks : List Nat,
    [.tpDrain, .tpBreak, .tpWrite (s.blk.txBuf.slice 1 (s.blk.txLen.toNat - 1))] ++ ks.map .tpRead <:+ s.tp.actions)

/-- The sole success signal (R204), in a run that has issued no reserved encoding (R206). -/
abbrev State.succeeded (s : State) : Prop := s.blk.state = stDone ∧ s.blk.error = 0x00 ∧ s.refused = false

/-- GETFRM's data of a slave response is the received payload (R240). -/
abbrev State.payloadValid (s : State) : Prop := s.blk.frameType = typeSlave ∧ s.succeeded

/-- A request the block accepts (R14, R140). -/
abbrev accepts (i : Instr) (s : State) : Prop := Instr.isRequest i = true ∧ i.wf = true ∧ s.blk.state = stIdle

/-- The environment does not reset the block before this command. -/
def Draw.noReset (d : Draw) : Prop := EnvEvent.coreReset ∉ d.env

/-- A command given at this time finds the transaction of `b` past its budget (R138). -/
def Draw.late (d : Draw) (b : Block) : Prop := b.timeoutUs.toNat < (d.now - b.tStart).toNat

end Sys2Proof.Machine
end

