-- ==== Sys2Proof/Certificates/Slice0/Obligations.lean ====
section
/-! DEFINITION. The statements for the provers, from the numbered rules of spec/. -/

open Sys2Proof Sys2Proof.Machine

/-! ## Encoding -/

/-- R71, R73, R77, R81: encoding drops no operand bit, at every value of every operand, the reserved forms of R78 and R79
included. -/
def Obligations.DecodeOfEncode : Prop :=
  ∀ i : Instr, decode (encode i).cmd (encode i).arg = .ok i

/-- R71 to R73: what the decoder reads from a command are exactly the bits of the fields the command uses. -/
def Obligations.EncodeOfDecodeKeepsUsedBits : Prop :=
  ∀ (cmd : BitVec 16) (arg : BitVec 64) (i : Instr), decode cmd arg = .ok i →
    encode i = ⟨cmd &&& i.usedCmdBits, arg &&& i.usedArgBits⟩

/-- R72, R76: a field a command does not use has no effect on what it decodes to, nor has a byte of `arg` from index `n` upward on
what MREQ or CHK does. -/
def Obligations.IgnoredFieldsHaveNoEffect : Prop :=
  (∀ (cmd cmd' : BitVec 16) (arg arg' : BitVec 64) (i : Instr), decode cmd arg = .ok i →
    cmd' &&& i.usedCmdBits = cmd &&& i.usedCmdBits → arg' &&& i.usedArgBits = arg &&& i.usedArgBits →
    decode cmd' arg' = .ok i) ∧
  ∀ (v : Version) (id : BitVec 6) (n : BitVec 4) (a a' : BitVec 64) (s : State),
    (∀ k, k < n.toNat → a.extractLsb' (8 * k) 8 = a'.extractLsb' (8 * k) 8) →
    exec (.mreq v id n a) s = exec (.mreq v id n a') s ∧ exec (.chk v id n a) s = exec (.chk v id n a') s

/-- R73, R78: the decoder rejects exactly the opcodes 0x0, 0xD, 0xE and 0xF, by name. -/
def Obligations.ReservedOpcodesRejected : Prop :=
  ∀ (cmd : BitVec 16) (arg : BitVec 64),
    (cmd.extractLsb' 0 4 ∈ [0x0#4, 0xD#4, 0xE#4, 0xF#4] →
      decode cmd arg = .error (.reservedOpcode (cmd.extractLsb' 0 4))) ∧
    (cmd.extractLsb' 0 4 ∉ [0x0#4, 0xD#4, 0xE#4, 0xF#4] →
      ∃ i : Instr, decode cmd arg = .ok i ∧ i.opcode = cmd.extractLsb' 0 4)

/-- R82: the worked encodings, read and written. -/
def Obligations.WorkedEncodings : Prop :=
  encode (.mreq .v2 0x10 2 0x0201) = ⟨0x1213, 0x0000000000000201⟩ ∧
  decode 0x1213 0x0201 = .ok (.mreq .v2 0x10 2 0x0201) ∧
  encode (.sresp .v1 0x20 2) = ⟨0x1404, 0⟩ ∧ decode 0x1404 0 = .ok (.sresp .v1 0x20 2) ∧
  encode (.pid 0x3D) = ⟨0x07AB, 0⟩ ∧ decode 0x07AB 0 = .ok (.pid 0x3D) ∧
  encode (.chk .v2 0x3C 2 0x0201) = ⟨0x179C, 0x0201⟩ ∧ decode 0x179C 0x0201 = .ok (.chk .v2 0x3C 2 0x0201) ∧
  (∀ bytes : BitVec 64, encode (.mreq .v2 0x3F 8 bytes) = ⟨0x47F3, bytes⟩ ∧
    decode 0x47F3 bytes = .ok (.mreq .v2 0x3F 8 bytes)) ∧
  encode (.sresp .v2 0x3F 8) = ⟨0x47F4, 0⟩ ∧ decode 0x47F4 0 = .ok (.sresp .v2 0x3F 8) ∧
  encode .step = ⟨0x0005, 0⟩ ∧ decode 0x0005 0 = .ok .step ∧
  encode (.openTp 19200) = ⟨0x0001, 0x4B00⟩ ∧ decode 0x0001 0x4B00 = .ok (.openTp 19200)

/-! ## The step -/

/-- R4, R57, R70: when the next command at the port decodes to `i`, the step is `exec i`, in the machine as the command samples
it: the environment's steps before it done, its time sampled, the command off the port. -/
def Obligations.StepRunsDecodedCommand : Prop :=
  ∀ (s : State) (c : PortEntry) (rest : List PortEntry) (i : Instr), s.port = c :: rest → decode c.cmd c.arg = .ok i →
    step s = exec i { envSteps c.env { s with port := rest } with now := c.now }

/-- R78 (the mark is the model's choice, log 5): a reserved opcode changes no state of the block, takes no transport action and
gives an empty response; the run is marked refused. -/
def Obligations.StepIgnoresReservedOpcode : Prop :=
  ∀ (s : State) (c : PortEntry) (rest : List PortEntry), s.port = c :: rest →
    c.cmd.extractLsb' 0 4 ∈ [0x0#4, 0xD#4, 0xE#4, 0xF#4] →
    step s = .next { envSteps c.env { s with port := rest } with now := c.now, response := [], refused := true }

/-- R231: with no command waiting the block takes no action. The waiting step itself is the model's choice (log 1). -/
def Obligations.WaitsForACommand : Prop :=
  ∀ s : State, s.port = [] → step s = .next s

/-- The host's way to place a command (log 1): the very next step runs it, and nothing else changes. -/
def Obligations.PlacedCommandRunsNext : Prop :=
  ∀ (s : State) (nbits w : Nat) (i : Instr), decodeTableWord nbits w = some i → step (s.withFetchWord nbits w) = exec i s

/-- R4, R35, R206: one step takes exactly one command and its time; no step writes the parameter or clears the mark of a refused
run. -/
def Obligations.StepTakesOneCommand : Prop :=
  ∀ (s t : State) (c : PortEntry) (rest : List PortEntry), s.port = c :: rest → step s = .next t →
    t.port = rest ∧ t.now = c.now ∧ t.cfg = s.cfg ∧ (s.refused = true → t.refused = true)

/-- R130, R232: no step of the environment changes the block, but a reset of the block, which leaves the transport as it is. -/
def Obligations.EnvironmentAndBlockAreApart : Prop :=
  ∀ (s : State) (es : List EnvEvent),
    (EnvEvent.coreReset ∉ es → (envSteps es s).blk = s.blk) ∧
    (envSteps (es ++ [.coreReset]) s).blk = Block.reset ∧ (envSteps (es ++ [.coreReset]) s).tp = (envSteps es s).tp

/-! ## Reset -/

/-- R230 (with R35): the value of every state element of the block at reset. -/
def Obligations.ResetValues : Prop :=
  (∀ s : State, (envSteps [.coreReset] s).blk = State.reset.blk) ∧
  State.reset.blk.state = 0x01 ∧ State.reset.blk.error = 0x00 ∧ State.reset.blk.baud = 0 ∧
  State.reset.blk.version = 0x01 ∧ State.reset.blk.frameType = 0x01 ∧ State.reset.blk.id = 0 ∧
  State.reset.blk.numData = 0 ∧ State.reset.blk.txLen = 0 ∧ State.reset.blk.rxLen = 0 ∧ State.reset.blk.rxCount = 0 ∧
  State.reset.blk.tStart = 0 ∧ State.reset.blk.timeoutUs = 0 ∧
  State.reset.blk.txBuf.toList = List.replicate 12 0x00 ∧ State.reset.blk.rxBuf.toList = List.replicate 12 0x00

/-! ## Codec -/

/-- R100, R120: PID, in every state, responds with one byte: the identifier in bits 5:0, the two parity bits above it; and changes
nothing else. -/
def Obligations.PidCommand : Prop :=
  ∀ (id : BitVec 6) (s : State), ∃ p : Byte, exec (.pid id) s = .next { s with response := [p] } ∧
    p.extractLsb' 0 6 = id ∧
    p.getLsbD 6 = (id.getLsbD 0 ^^ id.getLsbD 1 ^^ id.getLsbD 2 ^^ id.getLsbD 4) ∧
    p.getLsbD 7 = !(id.getLsbD 1 ^^ id.getLsbD 3 ^^ id.getLsbD 4 ^^ id.getLsbD 5)

/-- R103: PID is injective, because its low six bits are the identifier: two PID commands with one response had one identifier. -/
def Obligations.PidInjective : Prop :=
  (∀ id : BitVec 6, (pid id).extractLsb' 0 6 = id) ∧
  ∀ (a b : BitVec 6) (s t u w : State), exec (.pid a) s = .next t → exec (.pid b) u = .next w → t.response = w.response → a = b

/-- R105, R107, R108: as a congruence, with no loop: the seed, the data bytes and the checksum byte sum to 0 modulo 255, whatever
their order. -/
def Obligations.ChecksumIsAComplementModulo255 : Prop :=
  ∀ (v : Version) (id : BitVec 6) (data : List Byte),
    ((if v = .v2 ∧ id ≠ 0x3C ∧ id ≠ 0x3D then (pid id).toNat else 0) + (data.map BitVec.toNat).sum +
      (chksum v id data).toNat) % 255 = 0

/-- R106: the two variants of the diagnostic test the source names agree for every identifier, so they give the same checksum; the
third, unstated variant differs for id 0x3D only, and there it does. -/
def Obligations.DiagnosticVariantsAgree : Prop :=
  (∀ id : BitVec 6, (pid id = 0x3C ∨ pid id = 0x7D) ↔ (id = 0x3C ∨ id = 0x3D)) ∧
  (∀ (v : Version) (id : BitVec 6) (data : List Byte),
    BitVec.ofNat 8 (255 - data.foldl addCarry
      (if v = .v2 ∧ ¬(pid id = 0x3C ∨ pid id = 0x7D) then (pid id).toNat else 0)) = chksum v id data) ∧
  (∀ (v : Version) (id : BitVec 6) (data : List Byte), id ≠ 0x3D →
    BitVec.ofNat 8 (255 - data.foldl addCarry
      (if v = .v2 ∧ ¬(pid id = 0x3C ∨ pid id = 0x3D) then (pid id).toNat else 0)) = chksum v id data) ∧
  ∃ data : List Byte,
    BitVec.ofNat 8 (255 - data.foldl addCarry
      (if ¬(pid 0x3D = 0x3C ∨ pid 0x3D = 0x3D) then (pid 0x3D).toNat else 0)) ≠ chksum .v2 0x3D data

/-- R109: the corner cases of the checksum, as CHK gives them in every state. -/
def Obligations.ChecksumCorners : Prop :=
  ∀ (s : State) (id : BitVec 6) (arg : BitVec 64),
    exec (.chk .v1 id 0 arg) s = .next { s with response := [0xFF] } ∧
    (id ≠ 0x3C → id ≠ 0x3D → exec (.chk .v2 id 0 arg) s = .next { s with response := [~~~pid id] }) ∧
    (id = 0x00 → exec (.chk .v2 id 0 arg) s = .next { s with response := [0x7F] }) ∧
    (id = 0x3C ∨ id = 0x3D → exec (.chk .v2 id 0 arg) s = .next { s with response := [0xFF] }) ∧
    exec (.chk .v1 id 8 0xFFFFFFFFFFFFFFFF) s = .next { s with response := [0x00] } ∧
    exec (.chk .v1 id 8 0x0000000000000000) s = .next { s with response := [0xFF] } ∧
    exec (.chk .v1 id 2 0x01FF) s = .next { s with response := [0xFE] } ∧
    (id = 0x3F → exec (.chk .v2 id 2 0x9080) s = .next { s with response := [0x2F] }) ∧
    (id = 0x3E → exec (.chk .v2 id 1 0x01) s = .next { s with response := [0x00] })

/-- R121, R76: CHK with `n <= 8`, in every state, responds with the checksum of the first `n` bytes of `arg` and changes nothing. -/
def Obligations.ChkCommand : Prop :=
  ∀ (v : Version) (id : BitVec 6) (n : BitVec 4) (arg : BitVec 64) (s : State), n.toNat ≤ 8 →
    exec (.chk v id n arg) s =
      .next { s with response := [chksum v id ((List.range n.toNat).map fun k => arg.extractLsb' (8 * k) 8)] }

/-! ## Frames and their validation -/

/-- R110: every byte of the tx buffer and both lengths that buildMasterRequest writes. -/
def Obligations.MasterFrameLayout : Prop :=
  ∀ (v : Version) (id : BitVec 6) (data : List Byte) (b : Block), data.length ≤ 8 →
    let f := buildMasterRequest v id data b
    f.txBuf.at 0 = 0x00 ∧ f.txBuf.at 1 = 0x55 ∧ f.txBuf.at 2 = pid id ∧
    (∀ k (hk : k < data.length), f.txBuf.at (3 + k) = data[k]) ∧
    f.txBuf.at (3 + data.length) = chksum v id data ∧
    (∀ j, 4 + data.length ≤ j → j < 12 → f.txBuf.at j = 0x00) ∧
    f.txLen.toNat = 4 + data.length ∧ f.rxLen = f.txLen ∧
    f = { b with txBuf := f.txBuf, txLen := f.txLen, rxLen := f.rxLen }

/-- R111: every byte of the tx buffer and both lengths that buildSlaveResponse writes. -/
def Obligations.SlaveFrameLayout : Prop :=
  ∀ (id : BitVec 6) (n : BitVec 4) (b : Block), n.toNat ≤ 8 →
    let f := buildSlaveResponse id n b
    f.txBuf.at 0 = 0x00 ∧ f.txBuf.at 1 = 0x55 ∧ f.txBuf.at 2 = pid id ∧
    (∀ j, 3 ≤ j → j < 12 → f.txBuf.at j = 0x00) ∧
    f.txLen.toNat = 3 ∧ f.rxLen.toNat = 3 + n.toNat + 1 ∧
    f = { b with txBuf := f.txBuf, txLen := f.txLen, rxLen := f.rxLen }

/-- R112: checkFrame's result in terms of single bytes, for the lengths of a frame and the code of a version in the version register. -/
def Obligations.CheckFrameResult : Prop :=
  ∀ (b : Block) (v : Version), 4 ≤ b.rxLen.toNat → b.version = versionCode v →
    let data := (List.range (b.rxLen.toNat - 4)).map fun k => b.rxBuf.at (3 + k)
    (checkFrame b = .echo ↔ ∃ i, i < b.txLen.toNat ∧ b.rxBuf.at i ≠ b.txBuf.at i) ∧
    (checkFrame b = .checksum ↔ (∀ i, i < b.txLen.toNat → b.rxBuf.at i = b.txBuf.at i) ∧
      chksum v b.id data ≠ b.rxBuf.at (b.rxLen.toNat - 1)) ∧
    (checkFrame b = .ok ↔ (∀ i, i < b.txLen.toNat → b.rxBuf.at i = b.txBuf.at i) ∧
      chksum v b.id data = b.rxBuf.at (b.rxLen.toNat - 1))

/-- R116: for the frame of an accepted master request the echo check decides, and CHECKSUM cannot be returned; for that of a slave
response the echo covers the header only, and once it matches CHECKSUM is returned whenever the received checksum is not that of the
received data. `rx` is whatever was received. -/
def Obligations.EchoDecidesMasterFrames : Prop :=
  ∀ (s : State) (v : Version) (id : BitVec 6) (n : BitVec 4) (data : List Byte) (rx : Buf), n.toNat ≤ 8 →
    (data.length = n.toNat →
      let b := { acceptedBlock .masterRequest v id n data s with rxBuf := rx }
      (checkFrame b = .ok ↔ ∀ i, i < 4 + n.toNat → rx.at i = b.txBuf.at i) ∧ checkFrame b ≠ .checksum) ∧
    (let c := { acceptedBlock .slaveResponse v id n [] s with rxBuf := rx }
     (checkFrame c = .echo ↔ ∃ i, i < 3 ∧ rx.at i ≠ c.txBuf.at i) ∧
     (checkFrame c ≠ .echo →
       (checkFrame c = .checksum ↔
         rx.at (3 + n.toNat) ≠ chksum v id ((List.range n.toNat).map fun k => rx.at (3 + k)))))

/-- R117: a slave response frame whose buffer holds the header, any data of 0 to 8 bytes and their checksum passes checkFrame. -/
def Obligations.ChecksumRoundTrip : Prop :=
  ∀ (s : State) (v : Version) (id : BitVec 6) (n : BitVec 4) (data : List Byte), n.toNat ≤ 8 → data.length = n.toNat →
    checkFrame { acceptedBlock .slaveResponse v id n [] s with
      rxBuf := Buf.ofBytes ([0x00, 0x55, pid id] ++ data ++ [chksum v id data]) } = .ok

/-! ## The transaction commands -/

/-- R141: OPEN with a baud rate other than 0, in every state. That the command itself leaves the FIFO, and what the transport makes of
it comes as an environment step after it, is the model's choice (log 11), as is the record of actions (log 4). -/
def Obligations.OpenCommand : Prop :=
  ∀ (baud : BitVec 32) (s : State), baud ≠ 0 →
    exec (.openTp baud) s = .next { s with
      blk := { s.blk with baud := baud, state := stIdle }
      tp := { s.tp with isOpen := true, actions := s.tp.actions ++ [.tpOpen baud] }
      response := [] }

/-- R142: CLOSE, in every state. The FIFO and the record of actions are as for OPEN (log 4, log 11). -/
def Obligations.CloseCommand : Prop :=
  ∀ s : State, exec .closeTp s = .next { s with
    blk := { s.blk with state := stOff }
    tp := { s.tp with isOpen := false, actions := s.tp.actions ++ [.tpClose] }
    response := [] }

/-- R160: RSTSM, in every state, an illegal one included. -/
def Obligations.RstsmCommand : Prop :=
  ∀ s : State, exec .rstsm s = .next { s with blk := { s.blk with state := stIdle }, response := [] }

/-- R139: a request with `n <= 8` in any state but IDLE, an illegal one included. -/
def Obligations.RequestRejectedUnlessIdle : Prop :=
  ∀ (v : Version) (id : BitVec 6) (n : BitVec 4) (arg : BitVec 64) (s : State), n.toNat ≤ 8 → s.blk.state ≠ stIdle →
    let t : State := { s with
      blk := { s.blk with error := s.blk.error ||| 0x01, state := stDone }
      response := [stDone] }
    exec (.mreq v id n arg) s = .next t ∧ exec (.sresp v id n) s = .next t

/-- R140, R110, R137: MREQ accepted. -/
def Obligations.MreqAccepted : Prop :=
  ∀ (v : Version) (id : BitVec 6) (n : BitVec 4) (arg : BitVec 64) (s : State), n.toNat ≤ 8 → s.blk.state = stIdle →
    s.tp.isOpen = true →
    let data := (List.range n.toNat).map fun k => arg.extractLsb' (8 * k) 8
    exec (.mreq v id n arg) s = .next { s with
      blk := {
        state := stBreak, error := 0x00, baud := s.blk.baud, version := versionCode v, frameType := 0x01, id := id
        numData := n, txLen := BitVec.ofNat 4 (4 + n.toNat), rxLen := BitVec.ofNat 4 (4 + n.toNat), rxCount := 0
        tStart := s.now
        timeoutUs := BitVec.ofNat 32 ((4 + n.toNat) * (10 * 1000000 / s.blk.baud.toNat) * s.cfg.timeoutPct / 100)
        txBuf := Buf.ofBytes ([0x00, 0x55, pid id] ++ data ++ [chksum v id data])
        rxBuf := Buf.ofBytes [] }
      tp := { s.tp with rxFifo := [], breakDone := false, actions := s.tp.actions ++ [.tpDrain, .tpBreak] }
      response := [stBreak] }

/-- R140, R111, R137: SRESP accepted. -/
def Obligations.SrespAccepted : Prop :=
  ∀ (v : Version) (id : BitVec 6) (n : BitVec 4) (s : State), n.toNat ≤ 8 → s.blk.state = stIdle → s.tp.isOpen = true →
    exec (.sresp v id n) s = .next { s with
      blk := {
        state := stBreak, error := 0x00, baud := s.blk.baud, version := versionCode v, frameType := 0x02, id := id
        numData := n, txLen := 3, rxLen := BitVec.ofNat 4 (4 + n.toNat), rxCount := 0
        tStart := s.now
        timeoutUs := BitVec.ofNat 32 ((4 + n.toNat) * (10 * 1000000 / s.blk.baud.toNat) * s.cfg.timeoutPct / 100)
        txBuf := Buf.ofBytes [0x00, 0x55, pid id]
        rxBuf := Buf.ofBytes [] }
      tp := { s.tp with rxFifo := [], breakDone := false, actions := s.tp.actions ++ [.tpDrain, .tpBreak] }
      response := [stBreak] }

/-- R145: a request accepted while the transport is closed raises the model fault. -/
def Obligations.RequestOnClosedTransportFaults : Prop :=
  ∀ (v : Version) (id : BitVec 6) (n : BitVec 4) (arg : BitVec 64) (s : State), n.toNat ≤ 8 → s.blk.state = stIdle →
    s.tp.isOpen = false →
    exec (.mreq v id n arg) s = .fault .transportClosed ∧ exec (.sresp v id n) s = .fault .transportClosed

/-- R78, R79 (the mark is the model's choice, log 5): a reserved operand form changes no state of the block, takes no transport
action and gives an empty response; the run is marked refused. -/
def Obligations.ReservedOperandsIgnored : Prop :=
  ∀ (v : Version) (id : BitVec 6) (n : BitVec 4) (arg : BitVec 64) (s : State),
    let t : State := { s with response := [], refused := true }
    (8 < n.toNat → exec (.mreq v id n arg) s = .next t ∧ exec (.sresp v id n) s = .next t ∧
      exec (.chk v id n arg) s = .next t) ∧
    exec (.openTp 0) s = .next t

/-- R145, R206: every command in every state answers a next state, but a request accepted while the transport is closed; nothing is
refused. -/
def Obligations.EveryCommandRuns : Prop :=
  ∀ (i : Instr) (s : State),
    ((∃ t, exec i s = .next t) ↔ ¬(accepts i s ∧ s.tp.isOpen = false)) ∧ ∀ r, exec i s ≠ .refused r

/-! ## STEP -/

/-- R151, R152: STEP in OFF, IDLE and DONE is a no-op that responds with the state. -/
def Obligations.StepQuiescent : Prop :=
  ∀ s : State, s.blk.state = stOff ∨ s.blk.state = stIdle ∨ s.blk.state = stDone →
    exec .step s = .next { s with response := [s.blk.state] }

/-- R153: STEP in BREAK: a completed break beats the timeout. The write shows in the record of actions (log 4). -/
def Obligations.StepInBreak : Prop :=
  ∀ s : State, s.blk.state = stBreak →
    (s.tp.breakDone = true → exec .step s = .next { s with
      blk := { s.blk with state := stBody }
      tp := { s.tp with actions := s.tp.actions ++ [.tpWrite
        ((List.range (s.blk.txLen.toNat - 1)).map fun k => s.blk.txBuf.at (1 + k))] }
      response := [stBody] }) ∧
    (s.tp.breakDone = false → s.blk.timeoutUs.toNat < (s.now - s.blk.tStart).toNat → exec .step s = .next { s with
      blk := { s.blk with state := stDone, error := s.blk.error ||| 0x04 }
      response := [stDone] }) ∧
    (s.tp.breakDone = false → (s.now - s.blk.tStart).toNat ≤ s.blk.timeoutUs.toNat →
      exec .step s = .next { s with response := [stBreak] })

/-- R154 to R156: STEP in BODY. `r` is the block after the reception part; completion beats the timeout. The read shows in the
record of actions (log 4). The premise rules out states no run reaches (`InvariantKept`). -/
def Obligations.StepInBody : Prop :=
  ∀ s : State, s.blk.state = stBody → s.blk.rxCount.toNat ≤ s.blk.rxLen.toNat →
    let k := min s.tp.rxFifo.length (s.blk.rxLen.toNat - s.blk.rxCount.toNat)
    let r : Block := { s.blk with
      rxBuf := s.blk.rxBuf.store s.blk.rxCount.toNat (s.tp.rxFifo.take k)
      rxCount := BitVec.ofNat 4 (s.blk.rxCount.toNat + k) }
    let tp : Transport := { s.tp with rxFifo := s.tp.rxFifo.drop k, actions := s.tp.actions ++ [.tpRead k] }
    (r.rxCount = r.rxLen → exec .step s = .next { s with
      blk := { r with
        state := stDone
        error := match checkFrame r with
          | .ok => r.error
          | .echo => r.error ||| 0x02
          | .checksum => r.error ||| 0x08 }
      tp := tp, response := [stDone] }) ∧
    (r.rxCount ≠ r.rxLen → s.blk.timeoutUs.toNat < (s.now - s.blk.tStart).toNat → exec .step s = .next { s with
      blk := { r with state := stDone, error := r.error ||| 0x04 }, tp := tp, response := [stDone] }) ∧
    (r.rxCount ≠ r.rxLen → (s.now - s.blk.tStart).toNat ≤ s.blk.timeoutUs.toNat →
      exec .step s = .next { s with blk := r, tp := tp, response := [stBody] })

/-- R154, byte by byte: the bytes read go to the positions from `rxCount` on, in arrival order; every other byte of the rx buffer,
and the tx buffer, is as before; the bytes not read stay in the FIFO. The premises rule out states no run reaches
(`InvariantKept`). -/
def Obligations.ReceptionFillsInOrder : Prop :=
  ∀ s t : State, s.blk.state = stBody → s.blk.framed → exec .step s = .next t →
    let k := min s.tp.rxFifo.length (s.blk.rxLen.toNat - s.blk.rxCount.toNat)
    t.blk.rxCount.toNat = s.blk.rxCount.toNat + k ∧ t.tp.rxFifo = s.tp.rxFifo.drop k ∧ t.blk.txBuf = s.blk.txBuf ∧
    ∀ j, j < 12 → t.blk.rxBuf.at j =
      if s.blk.rxCount.toNat ≤ j ∧ j < s.blk.rxCount.toNat + k then s.tp.rxFifo.getD (j - s.blk.rxCount.toNat) 0x00
      else s.blk.rxBuf.at j

/-- R157: STEP with an illegal state value. -/
def Obligations.StepOnIllegalState : Prop :=
  ∀ s : State, ¬ s.blk.legalState → exec .step s = .next { s with
    blk := { s.blk with error := s.blk.error ||| 0x80, state := stDone }
    response := [stDone] }

/-- R158, within the STEP after a late one (log 18): from BODY a late STEP reaches DONE; from BREAK it reaches DONE, or BODY and
then DONE at the next late STEP. The premise rules out states no run reaches (`InvariantKept`). -/
def Obligations.LateStepsEndTheTransaction : Prop :=
  ∀ (s t : State) (d : Draw), s.blk.inTransaction → s.blk.rxCount.toNat ≤ s.blk.rxLen.toNat → d.noReset → d.late s.blk →
    issue .step d s = .next t →
    t.blk.state = stDone ∨
      (s.blk.state = stBreak ∧ t.blk.state = stBody ∧
        ∀ (d' : Draw) (u : State), d'.noReset → d'.late s.blk → issue .step d' t = .next u → u.blk.state = stDone)

/-! ## Status and read-out -/

/-- R170, R171: GETST and GETERR, in every state, respond with the register and change nothing. -/
def Obligations.StatusReadCommands : Prop :=
  ∀ s : State,
    exec .getst s = .next { s with response := [s.blk.state] } ∧
    exec .geterr s = .next { s with response := [s.blk.error] }

/-- R172: CLRERR, in every state, clears the error register and changes nothing else. -/
def Obligations.ClrerrCommand : Prop :=
  ∀ s : State, exec .clrerr s = .next { s with blk := { s.blk with error := 0x00 }, response := [] }

/-- R174: GETFRM: sent data for MASTER_REQUEST (0x01), received data otherwise; the response begins with the type register. -/
def Obligations.GetfrmCommand : Prop :=
  ∀ s : State,
    (s.blk.frameType = 0x01 → exec .getfrm s = .next { s with
      response := [0x01, s.blk.id.setWidth 8, s.blk.numData.setWidth 8] ++
        (List.range s.blk.numData.toNat).map fun k => s.blk.txBuf.at (3 + k) }) ∧
    (s.blk.frameType ≠ 0x01 → exec .getfrm s = .next { s with
      response := [s.blk.frameType, s.blk.id.setWidth 8, s.blk.numData.setWidth 8] ++
        (List.range s.blk.numData.toNat).map fun k => s.blk.rxBuf.at (3 + k) })

/-- R73, R75: the response of each command, read off the state after it. -/
def Obligations.ResponseOfEachCommand : Prop :=
  ∀ (i : Instr) (s t : State), i.wf = true → exec i s = .next t →
    match i with
    | .openTp _ => t.response = []
    | .closeTp => t.response = []
    | .mreq _ _ _ _ => t.response = [t.blk.state]
    | .sresp _ _ _ => t.response = [t.blk.state]
    | .step => t.response = [t.blk.state]
    | .getst => t.response = [t.blk.state]
    | .geterr => t.response = [t.blk.error]
    | .clrerr => t.response = []
    | .rstsm => t.response = []
    | .getfrm => t.response.length = 3 + t.blk.numData.toNat
    | .pid id => t.response = [pid id]
    | .chk v id n arg => t.response = [chksum v id (operandData n arg)]

/-! ## Time -/

/-- R137: for a legal parameter and the lengths a frame has, the budget is the exact natural and fits the register. -/
def Obligations.TimeoutBudgetIsExact : Prop :=
  ∀ (rxLen : BitVec 4) (baud : BitVec 32) (cfg : Config), cfg.legal → rxLen.toNat ≤ 12 →
    (timeoutBudget rxLen baud cfg).toNat = (rxLen.toNat * (10 * 1000000 / baud.toNat) * cfg.timeoutPct) / 100 ∧
    (timeoutBudget rxLen baud cfg).toNat ≤ 1200000000 ∧
    (10000000 < baud.toNat → timeoutBudget rxLen baud cfg = 0)

/-- R138, R236: when `d` microseconds have truly passed since the request, the test finds the transaction timed out exactly when
`d` modulo 2^32 is past the budget: right across one wrap, and missed for a further span when polled too late. -/
def Obligations.TimedOutAcrossTheWrap : Prop :=
  ∀ (s : State) (d : Nat), s.now = s.blk.tStart + BitVec.ofNat 32 d →
    (timedOut s = true ↔ s.blk.timeoutUs.toNat < d % 2 ^ 32) ∧
    (d < 2 ^ 32 → (timedOut s = true ↔ s.blk.timeoutUs.toNat < d))

/-! ## Whole-machine rules -/

/-- R161: `S.state` moves only along the transitions of the table. -/
def Obligations.StateMovesAlongTheTable : Prop :=
  ∀ (i : Instr) (s t : State), exec i s = .next t → t.blk.state ≠ s.blk.state →
    i.wf = true ∧
    (((∃ baud, i = .openTp baud) ∧ t.blk.state = stIdle) ∨
     (i = .closeTp ∧ t.blk.state = stOff) ∨
     (i = .rstsm ∧ t.blk.state = stIdle) ∨
     (i.isRequest = true ∧ s.blk.state = stIdle ∧ t.blk.state = stBreak) ∨
     (i.isRequest = true ∧ s.blk.state ≠ stIdle ∧ t.blk.state = stDone) ∨
     (i = .step ∧ s.blk.state = stBreak ∧ s.tp.breakDone = true ∧ t.blk.state = stBody) ∨
     (i = .step ∧ s.blk.state = stBreak ∧ s.tp.breakDone = false ∧ timedOut s = true ∧ t.blk.state = stDone) ∨
     (i = .step ∧ s.blk.state = stBody ∧ (t.blk.rxCount = t.blk.rxLen ∨ timedOut s = true) ∧ t.blk.state = stDone) ∨
     (i = .step ∧ ¬ s.blk.legalState ∧ t.blk.state = stDone))

/-- R201: no command clears an error bit but CLRERR and an accepted request, and those clear all of them. -/
def Obligations.ErrorsAreClearedOnlyBy : Prop :=
  ∀ (i : Instr) (s t : State), exec i s = .next t →
    (i ≠ .clrerr → ¬ accepts i s → s.blk.error &&& t.blk.error = s.blk.error) ∧
    (i = .clrerr ∨ accepts i s → t.blk.error = 0x00)

/-- R202, R203, R205, R206: a command that latches an error latches exactly one bit, with the cause the table gives it, drives the
state to DONE and responds [DONE]. What the version register reads as when it holds neither code is log 9's. -/
def Obligations.ErrorEntry : Prop :=
  ∀ (i : Instr) (s t : State), exec i s = .next t → s.blk.error ||| t.blk.error ≠ s.blk.error →
    t.blk.state = stDone ∧ t.response = [stDone] ∧
    ((t.blk.error = s.blk.error ||| 0x01 ∧ i.isRequest = true ∧ s.blk.state ≠ stIdle) ∨
     (t.blk.error = s.blk.error ||| 0x02 ∧ i = .step ∧ s.blk.state = stBody ∧ t.blk.rxCount = t.blk.rxLen ∧
       ∃ j, j < t.blk.txLen.toNat ∧ t.blk.rxBuf.at j ≠ t.blk.txBuf.at j) ∨
     (t.blk.error = s.blk.error ||| 0x04 ∧ i = .step ∧ timedOut s = true ∧
       ((s.blk.state = stBreak ∧ s.tp.breakDone = false) ∨
        (s.blk.state = stBody ∧ t.blk.rxCount.toNat < t.blk.rxLen.toNat))) ∨
     (t.blk.error = s.blk.error ||| 0x08 ∧ i = .step ∧ s.blk.state = stBody ∧ t.blk.rxCount = t.blk.rxLen ∧
       (∀ j, j < t.blk.txLen.toNat → t.blk.rxBuf.at j = t.blk.txBuf.at j) ∧
       chksum (readVersion t.blk.version) t.blk.id (receivedData t.blk) ≠ t.blk.rxBuf.at (t.blk.rxLen.toNat - 1)) ∨
     (t.blk.error = s.blk.error ||| 0x80 ∧ i = .step ∧ ¬ s.blk.legalState))

/-- R24 to R32: which commands write each state element: `baud` OPEN only; the frame's fields, the tx buffer and the time registers
an accepted request only; the rx buffer and its count an accepted request and STEP in BODY only. -/
def Obligations.WritersOfEachElement : Prop :=
  ∀ (i : Instr) (s t : State), exec i s = .next t →
    ((∀ baud, i ≠ .openTp baud) → t.blk.baud = s.blk.baud) ∧
    (¬ accepts i s →
      t.blk.version = s.blk.version ∧ t.blk.frameType = s.blk.frameType ∧ t.blk.id = s.blk.id ∧
      t.blk.numData = s.blk.numData ∧ t.blk.txLen = s.blk.txLen ∧ t.blk.rxLen = s.blk.rxLen ∧
      t.blk.tStart = s.blk.tStart ∧ t.blk.timeoutUs = s.blk.timeoutUs ∧ t.blk.txBuf = s.blk.txBuf) ∧
    (¬ accepts i s → ¬(i = .step ∧ s.blk.state = stBody) →
      t.blk.rxBuf = s.blk.rxBuf ∧ t.blk.rxCount = s.blk.rxCount)

/-- R58, R139, R151, R152, R159, R160: a command touches the transport only where its rule lists an action; no action is ever taken
back. -/
def Obligations.TransportActionsOfEachCommand : Prop :=
  ∀ (i : Instr) (s t : State), exec i s = .next t →
    s.tp.actions <+: t.tp.actions ∧
    (t.tp ≠ s.tp →
      i.wf = true ∧ ((∃ baud, i = .openTp baud) ∨ i = .closeTp ∨ accepts i s ∨
        (i = .step ∧ s.blk.state = stBreak ∧ s.tp.breakDone = true) ∨ (i = .step ∧ s.blk.state = stBody)))

/-! ## Invariants -/

/-- R25, R26, R33, R34, R37, R205, R60, R175: the invariants hold at reset. -/
def Obligations.InvariantsAtReset : Prop :=
  State.reset.Inv ∧ State.reset.blk.buffersSound ∧ State.reset.ordered

/-- R25, R26, R33, R34, R37, R205: a legal state, legal codes of version and type, a reachable error value, no error while a transaction is in flight, and the relations
between the lengths are kept by every step, whatever the environment does before it. -/
def Obligations.InvariantKept : Prop :=
  ∀ s t : State, s.Inv → step s = .next t → t.Inv

/-- R110, R111, R140, R175: the tx buffer keeps the header, and in a master request the checksum of its data; the rx positions not
received read 0x00. Every step keeps it. -/
def Obligations.BuffersStaySound : Prop :=
  ∀ s t : State, s.Inv → s.blk.buffersSound → step s = .next t → t.blk.buffersSound

/-- R60: the break is started before any byte is written, and the frame is written before any byte is read. Every step keeps that
order. -/
def Obligations.TransactionOrderKept : Prop :=
  ∀ s t : State, s.ordered → step s = .next t → t.ordered

/-- R116, R205: in a machine whose buffers are sound, a master request never ends in CHECKSUM. -/
def Obligations.MasterRequestNeverEndsInChecksum : Prop :=
  ∀ s t : State, s.Inv → s.blk.buffersSound → s.blk.frameType = typeMaster → s.blk.inTransaction →
    exec .step s = .next t → t.blk.error ∈ [0x00, 0x02, 0x04]

/-! ## Blocking sequences -/

/-- R181: a blocking sequence started in a state other than IDLE ends at once, whatever polls the host would make: its result has
STATE set and its frame is the old one. Where that frame has fewer than `n` data bytes, the data SRESPB gives are the model's choice
(log 14). -/
def Obligations.BlockingOutsideIdleEndsAtOnce : Prop :=
  ∀ (v : Version) (id : BitVec 6) (n : BitVec 4) (arg : BitVec 64) (req err frm : Draw) (polls : List Draw) (s : State),
    n.toNat ≤ 8 → s.blk.state ≠ stIdle → req.env = [] → err.env = [] → frm.env = [] →
    let blk : Block := { s.blk with error := s.blk.error ||| 0x01, state := stDone }
    mreqb v id n arg req polls err s =
      .finished [s.blk.error ||| 0x01] { s with blk := blk, now := err.now, response := [s.blk.error ||| 0x01] } ∧
    srespb v id n req polls err frm s =
      .finished ([s.blk.error ||| 0x01], ((frameResponse blk).drop 3).take n.toNat)
        { s with blk := blk, now := frm.now, response := frameResponse blk }

/-- R180, R158: polling ends. From a transaction in flight, whatever the environment does short of a reset of the block, a host
that polls twice more once the time input is past the budget reaches DONE. The premise on the lengths rules out states no run
reaches (`InvariantKept`). -/
def Obligations.PollingReachesDone : Prop :=
  ∀ (s : State) (before : List Draw) (d1 d2 : Draw) (after : List Draw), s.blk.inTransaction → s.blk.framed →
    s.response ≠ [stDone] → (∀ d ∈ before, d.noReset) → d1.noReset → d2.noReset → d1.late s.blk → d2.late s.blk →
    ∃ t, pollDone (before ++ d1 :: d2 :: after) s = .finished () t ∧ t.blk.state = stDone

/-- R178, R110, R153 to R155 (the source's first end-to-end scenario, for every frame): over a transport that completes the break
and echoes exactly what is written, MREQB from IDLE gives error 0x00, leaves DONE, and GETFRM then gives the request back. -/
def Obligations.LoopbackMasterRequestSucceeds : Prop :=
  ∀ (v : Version) (id : BitVec 6) (n : BitVec 4) (arg : BitVec 64) (s : State) (t0 t1 t2 t3 : BitVec 32),
    n.toNat ≤ 8 → s.blk.state = stIdle → s.tp.isOpen = true →
    let data := (List.range n.toNat).map fun k => arg.extractLsb' (8 * k) 8
    let echo := [0x55, pid id] ++ data ++ [chksum v id data]
    ∃ u, mreqb v id n arg ⟨[], t0⟩
        [⟨breakCompletes, t1⟩, ⟨echo.map fun b => .transport (.rx b), t2⟩] ⟨[], t3⟩ s = .finished [0x00] u ∧
      u.blk.state = stDone ∧ u.blk.error = 0x00 ∧
      exec .getfrm u = .next { u with response := [0x01, id.setWidth 8, n.setWidth 8] ++ data }

/-- R179, R111, R153 to R155 (the source's second end-to-end scenario, for every frame): over a transport that echoes the header
and then delivers any `n` data bytes and a last byte, SRESPB from IDLE gives the data, with error 0x00 when the last byte is the
checksum of the data under the master's version and identifier, and with CHECKSUM otherwise. -/
def Obligations.SlaveResponseIsDelivered : Prop :=
  ∀ (v : Version) (id : BitVec 6) (n : BitVec 4) (data : List Byte) (last : Byte) (s : State)
    (t0 t1 t2 t3 t4 : BitVec 32),
    n.toNat ≤ 8 → data.length = n.toNat → s.blk.state = stIdle → s.tp.isOpen = true →
    let bytes := [0x55, pid id] ++ data ++ [last]
    ∃ u, srespb v id n ⟨[], t0⟩
        [⟨breakCompletes, t1⟩, ⟨bytes.map fun b => .transport (.rx b), t2⟩] ⟨[], t3⟩ ⟨[], t4⟩ s =
          .finished ([if last = chksum v id data then 0x00 else 0x08], data) u ∧
      u.blk.state = stDone
end

