-- ==== Sys2Proof/Laws/State.lean ====
section
/-! SUPPORT. One lemma per field per named update of State, so that no later proof unfolds a record update. -/

namespace Sys2Proof.Machine

section respond
variable (bs : List Byte) (s : State)
@[simp] theorem respond_blk : (respond bs s).blk = s.blk := rfl
@[simp] theorem respond_tp : (respond bs s).tp = s.tp := rfl
@[simp] theorem respond_now : (respond bs s).now = s.now := rfl
@[simp] theorem respond_response : (respond bs s).response = bs := rfl
@[simp] theorem respond_port : (respond bs s).port = s.port := rfl
@[simp] theorem respond_refused : (respond bs s).refused = s.refused := rfl
@[simp] theorem respond_cfg : (respond bs s).cfg = s.cfg := rfl
end respond

section respondState
variable (s : State)
@[simp] theorem respondState_blk : (respondState s).blk = s.blk := rfl
@[simp] theorem respondState_tp : (respondState s).tp = s.tp := rfl
@[simp] theorem respondState_now : (respondState s).now = s.now := rfl
@[simp] theorem respondState_response : (respondState s).response = [s.blk.state] := rfl
@[simp] theorem respondState_port : (respondState s).port = s.port := rfl
@[simp] theorem respondState_refused : (respondState s).refused = s.refused := rfl
@[simp] theorem respondState_cfg : (respondState s).cfg = s.cfg := rfl
end respondState

section setState
variable (v : Byte) (s : State)
@[simp] theorem setState_blk : (setState v s).blk = { s.blk with state := v } := rfl
@[simp] theorem setState_tp : (setState v s).tp = s.tp := rfl
@[simp] theorem setState_now : (setState v s).now = s.now := rfl
@[simp] theorem setState_response : (setState v s).response = s.response := rfl
@[simp] theorem setState_port : (setState v s).port = s.port := rfl
@[simp] theorem setState_refused : (setState v s).refused = s.refused := rfl
@[simp] theorem setState_cfg : (setState v s).cfg = s.cfg := rfl
end setState

section latch
variable (e : Byte) (s : State)
@[simp] theorem latch_blk : (latch e s).blk = { s.blk with error := s.blk.error ||| e } := rfl
@[simp] theorem latch_tp : (latch e s).tp = s.tp := rfl
@[simp] theorem latch_now : (latch e s).now = s.now := rfl
@[simp] theorem latch_response : (latch e s).response = s.response := rfl
@[simp] theorem latch_port : (latch e s).port = s.port := rfl
@[simp] theorem latch_refused : (latch e s).refused = s.refused := rfl
@[simp] theorem latch_cfg : (latch e s).cfg = s.cfg := rfl
end latch

section enterError
variable (e : Byte) (s : State)
@[simp] theorem enterError_blk :
    (enterError e s).blk = { s.blk with state := stDone, error := s.blk.error ||| e } := rfl
@[simp] theorem enterError_tp : (enterError e s).tp = s.tp := rfl
@[simp] theorem enterError_now : (enterError e s).now = s.now := rfl
@[simp] theorem enterError_response : (enterError e s).response = s.response := rfl
@[simp] theorem enterError_port : (enterError e s).port = s.port := rfl
@[simp] theorem enterError_refused : (enterError e s).refused = s.refused := rfl
@[simp] theorem enterError_cfg : (enterError e s).cfg = s.cfg := rfl
end enterError

section leaveToIdle
variable (s : State)
@[simp] theorem leaveToIdle_blk : (leaveToIdle s).blk = { s.blk with state := stIdle } := rfl
@[simp] theorem leaveToIdle_tp : (leaveToIdle s).tp = s.tp := rfl
@[simp] theorem leaveToIdle_now : (leaveToIdle s).now = s.now := rfl
@[simp] theorem leaveToIdle_response : (leaveToIdle s).response = s.response := rfl
@[simp] theorem leaveToIdle_port : (leaveToIdle s).port = s.port := rfl
@[simp] theorem leaveToIdle_refused : (leaveToIdle s).refused = s.refused := rfl
@[simp] theorem leaveToIdle_cfg : (leaveToIdle s).cfg = s.cfg := rfl
end leaveToIdle

section clearError
variable (s : State)
@[simp] theorem clearError_blk : (clearError s).blk = { s.blk with error := 0x00 } := rfl
@[simp] theorem clearError_tp : (clearError s).tp = s.tp := rfl
@[simp] theorem clearError_now : (clearError s).now = s.now := rfl
@[simp] theorem clearError_response : (clearError s).response = s.response := rfl
@[simp] theorem clearError_port : (clearError s).port = s.port := rfl
@[simp] theorem clearError_refused : (clearError s).refused = s.refused := rfl
@[simp] theorem clearError_cfg : (clearError s).cfg = s.cfg := rfl
end clearError

section ignoreReserved
variable (s : State)
@[simp] theorem ignoreReserved_blk : (ignoreReserved s).blk = s.blk := rfl
@[simp] theorem ignoreReserved_tp : (ignoreReserved s).tp = s.tp := rfl
@[simp] theorem ignoreReserved_now : (ignoreReserved s).now = s.now := rfl
@[simp] theorem ignoreReserved_response : (ignoreReserved s).response = [] := rfl
@[simp] theorem ignoreReserved_port : (ignoreReserved s).port = s.port := rfl
@[simp] theorem ignoreReserved_refused : (ignoreReserved s).refused = true := rfl
@[simp] theorem ignoreReserved_cfg : (ignoreReserved s).cfg = s.cfg := rfl
end ignoreReserved

section startTransaction
variable (kind : FrameType) (version : Version) (id : BitVec 6) (n : BitVec 4) (data : List Byte) (s : State)
@[simp] theorem startTransaction_blk : (startTransaction kind version id n data s).blk =
    { acceptedBlock kind version id n data s with state := stBreak } := rfl
@[simp] theorem startTransaction_tp :
    (startTransaction kind version id n data s).tp = s.tp.drain.startBreak := rfl
@[simp] theorem startTransaction_now : (startTransaction kind version id n data s).now = s.now := rfl
@[simp] theorem startTransaction_response : (startTransaction kind version id n data s).response = [stBreak] := rfl
@[simp] theorem startTransaction_port : (startTransaction kind version id n data s).port = s.port := rfl
@[simp] theorem startTransaction_refused : (startTransaction kind version id n data s).refused = s.refused := rfl
@[simp] theorem startTransaction_cfg : (startTransaction kind version id n data s).cfg = s.cfg := rfl
end startTransaction

section transport
variable (tp : Transport)
@[simp] theorem drain_rxFifo : tp.drain.rxFifo = [] := by
  simp [Transport.drain, Transport.record, Transport.avail]
@[simp] theorem drain_breakDone : tp.drain.breakDone = tp.breakDone := rfl
@[simp] theorem drain_isOpen : tp.drain.isOpen = tp.isOpen := rfl
@[simp] theorem drain_actions : tp.drain.actions = tp.actions ++ [.tpDrain] := rfl
@[simp] theorem startBreak_rxFifo : tp.startBreak.rxFifo = tp.rxFifo := rfl
@[simp] theorem startBreak_breakDone : tp.startBreak.breakDone = false := rfl
@[simp] theorem startBreak_isOpen : tp.startBreak.isOpen = tp.isOpen := rfl
@[simp] theorem startBreak_actions : tp.startBreak.actions = tp.actions ++ [.tpBreak] := rfl
variable (bs : List Byte) (k : Nat) (baud : BitVec 32)
@[simp] theorem write_rxFifo : (tp.write bs).rxFifo = tp.rxFifo := rfl
@[simp] theorem write_breakDone : (tp.write bs).breakDone = tp.breakDone := rfl
@[simp] theorem write_isOpen : (tp.write bs).isOpen = tp.isOpen := rfl
@[simp] theorem write_actions : (tp.write bs).actions = tp.actions ++ [.tpWrite bs] := rfl
@[simp] theorem read_rxFifo : (tp.read k).rxFifo = tp.rxFifo.drop k := rfl
@[simp] theorem read_breakDone : (tp.read k).breakDone = tp.breakDone := rfl
@[simp] theorem read_isOpen : (tp.read k).isOpen = tp.isOpen := rfl
@[simp] theorem read_actions : (tp.read k).actions = tp.actions ++ [.tpRead k] := rfl
@[simp] theorem openAt_rxFifo : (tp.openAt baud).rxFifo = tp.rxFifo := rfl
@[simp] theorem openAt_breakDone : (tp.openAt baud).breakDone = tp.breakDone := rfl
@[simp] theorem openAt_isOpen : (tp.openAt baud).isOpen = true := rfl
@[simp] theorem openAt_actions : (tp.openAt baud).actions = tp.actions ++ [.tpOpen baud] := rfl
@[simp] theorem shut_rxFifo : tp.shut.rxFifo = tp.rxFifo := rfl
@[simp] theorem shut_breakDone : tp.shut.breakDone = tp.breakDone := rfl
@[simp] theorem shut_isOpen : tp.shut.isOpen = false := rfl
@[simp] theorem shut_actions : tp.shut.actions = tp.actions ++ [.tpClose] := rfl
end transport

section sample
variable (c : PortEntry) (rest : List PortEntry) (s : State)

theorem envStep_frame (e : EnvEvent) : (envStep s e).now = s.now ∧ (envStep s e).response = s.response ∧
    (envStep s e).port = s.port ∧ (envStep s e).refused = s.refused ∧ (envStep s e).cfg = s.cfg := by
  cases e <;> exact ⟨rfl, rfl, rfl, rfl, rfl⟩

/-- The environment touches only the block (a reset) and the transport. -/
theorem envSteps_frame (es : List EnvEvent) : ∀ s : State, (envSteps es s).now = s.now ∧
    (envSteps es s).response = s.response ∧ (envSteps es s).port = s.port ∧ (envSteps es s).refused = s.refused ∧
    (envSteps es s).cfg = s.cfg := by
  induction es with
  | nil => intro s; exact ⟨rfl, rfl, rfl, rfl, rfl⟩
  | cons e es ih =>
    intro s
    obtain ⟨h1, h2, h3, h4, h5⟩ := ih (envStep s e)
    obtain ⟨g1, g2, g3, g4, g5⟩ := envStep_frame s e
    exact ⟨h1.trans g1, h2.trans g2, h3.trans g3, h4.trans g4, h5.trans g5⟩

@[simp] theorem sample_now : (sample c rest s).now = c.now := rfl
@[simp] theorem sample_response : (sample c rest s).response = s.response :=
  (envSteps_frame c.env { s with port := rest }).2.1
@[simp] theorem sample_port : (sample c rest s).port = rest :=
  (envSteps_frame c.env { s with port := rest }).2.2.1
@[simp] theorem sample_refused : (sample c rest s).refused = s.refused :=
  (envSteps_frame c.env { s with port := rest }).2.2.2.1
@[simp] theorem sample_cfg : (sample c rest s).cfg = s.cfg :=
  (envSteps_frame c.env { s with port := rest }).2.2.2.2
end sample

end Sys2Proof.Machine
end

