-- ==== Sys2Proof/Laws/Codec.lean ====
section
/-! SUPPORT. Buffer access, the checksum's accumulator, and the protected identifier. -/

namespace Sys2Proof.Machine

/-! Buffers. -/

theorem Buf.at_eq (b : Buf) {i : Nat} (h : i < 12) : b.at i = b[i] := by
  simp [Buf.at, h]

theorem Buf.at_of_ge (b : Buf) {i : Nat} (h : 12 ≤ i) : b.at i = 0x00 := by
  simp [Buf.at, h]

@[simp] theorem Buf.at_zero (i : Nat) : Buf.zero.at i = 0x00 := by
  by_cases h : i < 12
  · rw [Buf.at_eq _ h]; simp [Buf.zero]
  · exact Buf.at_of_ge _ (by omega)

/-- Two buffers with the same bytes are the same buffer. -/
theorem Buf.ext_at {a b : Buf} (h : ∀ i, i < 12 → a.at i = b.at i) : a = b := by
  apply Vector.ext
  intro i hi
  rw [← Buf.at_eq a hi, ← Buf.at_eq b hi, h i hi]

theorem Buf.at_ofBytes (bs : List Byte) {i : Nat} (h : i < 12) : (Buf.ofBytes bs).at i = bs.getD i 0x00 := by
  rw [Buf.at_eq _ h]; simp [Buf.ofBytes]

theorem Buf.at_set (b : Buf) (k : Nat) (v : Byte) {i : Nat} (h : i < 12) :
    Buf.at (b.setIfInBounds k v) i = if i = k then v else b.at i := by
  rw [Buf.at_eq _ h, Buf.at_eq _ h, Vector.getElem_setIfInBounds]
  simp [eq_comm]

/-- What `Buf.store` leaves at each index (R154). -/
theorem Buf.at_store (bs : List Byte) : ∀ (b : Buf) (start : Nat) {i : Nat}, i < 12 →
    (b.store start bs).at i = if start ≤ i ∧ i < start + bs.length then bs.getD (i - start) 0x00 else b.at i := by
  induction bs with
  | nil => intro b start i _; simp [Buf.store]
  | cons v bs ih =>
    intro b start i h
    rw [Buf.store, ih _ _ h, Buf.at_set _ _ _ h]
    by_cases hi : i = start
    · subst hi; simp
    · by_cases h1 : start + 1 ≤ i ∧ i < start + 1 + bs.length
      · rw [if_pos h1, if_pos ⟨by omega, by simp only [List.length_cons]; omega⟩, show i - start = (i - (start + 1)) + 1 by omega]
        simp
      · rw [if_neg h1, if_neg hi, if_neg (by simp; omega)]

@[simp] theorem Buf.slice_length (b : Buf) (lo len : Nat) : (b.slice lo len).length = len := by simp [Buf.slice]

/-- A slice is determined by the bytes it covers. -/
theorem Buf.slice_congr {a b : Buf} {lo len : Nat} (h : ∀ k, k < len → a.at (lo + k) = b.at (lo + k)) :
    a.slice lo len = b.slice lo len := by
  simp only [Buf.slice]
  exact List.map_congr_left fun k hk => h k (List.mem_range.mp hk)

/-- Reading back a list that lies in a buffer. -/
theorem Buf.slice_ofBytes (pre mid post : List Byte) (h : pre.length + mid.length ≤ 12) :
    (Buf.ofBytes (pre ++ mid ++ post)).slice pre.length mid.length = mid := by
  apply List.ext_getElem (by simp)
  intro k h1 h2
  simp only [Buf.slice_length] at h1
  simp only [Buf.slice, List.getElem_map, List.getElem_range]
  rw [Buf.at_ofBytes _ (by omega)]
  simp [List.getD_eq_getElem?_getD, List.getElem?_append, h1]

/-! The accumulator (R107). -/

/-- After each addition the accumulator is back in 0 to 255 (R107). -/
theorem addCarry_le {acc : Nat} (h : acc ≤ 255) (b : Byte) : addCarry acc b ≤ 255 := by
  have := b.isLt
  simp only [addCarry]; split <;> omega

theorem addCarry_mod (acc : Nat) (b : Byte) : addCarry acc b % 255 = (acc + b.toNat) % 255 := by
  simp only [addCarry]; split <;> omega

theorem foldl_addCarry_le (data : List Byte) : ∀ {acc : Nat}, acc ≤ 255 → data.foldl addCarry acc ≤ 255 := by
  induction data with
  | nil => intro acc h; exact h
  | cons b data ih => intro acc h; exact ih (addCarry_le h b)

theorem foldl_addCarry_mod (data : List Byte) :
    ∀ acc : Nat, data.foldl addCarry acc % 255 = (acc + (data.map BitVec.toNat).sum) % 255 := by
  induction data with
  | nil => intro acc; simp
  | cons b data ih =>
    intro acc
    have := addCarry_mod acc b
    simp only [List.foldl_cons, ih, List.map_cons, List.sum_cons]
    omega

theorem seed_le (v : Version) (id : BitVec 6) : seed v id ≤ 255 := by
  have := (pid id).isLt
  simp only [seed]; split <;> omega

/-- The checksum byte as a number (R108). -/
theorem chksum_toNat (v : Version) (id : BitVec 6) (data : List Byte) :
    (chksum v id data).toNat = 255 - data.foldl addCarry (seed v id) := by
  simp only [chksum, BitVec.toNat_ofNat]; omega

/-- Adding the checksum byte last gives exactly 0xFF (95_test_vectors.md section 1.3). -/
theorem foldl_addCarry_chksum (v : Version) (id : BitVec 6) (data : List Byte) :
    (data ++ [chksum v id data]).foldl addCarry (seed v id) = 255 := by
  have h := foldl_addCarry_le data (seed_le v id)
  simp only [List.foldl_append, List.foldl_cons, List.foldl_nil, addCarry, chksum_toNat]
  split <;> omega

/-! The protected identifier (R103, R106). -/

theorem pid_low : ∀ id : BitVec 6, (pid id).extractLsb' 0 6 = id := by decide

theorem isDiag_eq (id : BitVec 6) : isDiag id = false ↔ id ≠ 0x3C ∧ id ≠ 0x3D := by
  simp [isDiag]

/-! The version and type registers (R25, R26). -/

@[simp] theorem readVersion_versionCode (v : Version) : readVersion (versionCode v) = v := by cases v <;> rfl

@[simp] theorem frameTypeCode_masterRequest : frameTypeCode .masterRequest = typeMaster := rfl
@[simp] theorem frameTypeCode_slaveResponse : frameTypeCode .slaveResponse = typeSlave := rfl

theorem versionCode_mem (v : Version) : versionCode v ∈ [verV1, verV2] := by cases v <;> decide

theorem frameTypeCode_mem (kind : FrameType) : frameTypeCode kind ∈ [typeMaster, typeSlave] := by cases kind <;> decide

/-! The validator (R112). -/

theorem echoMatches_iff (b : Block) :
    echoMatches b = true ↔ ∀ i, i < b.txLen.toNat → b.rxBuf.at i = b.txBuf.at i := by
  simp [echoMatches]

/-- Everything checkFrame can answer (R112, R113). -/
theorem checkFrame_cases (b : Block) :
    ((∃ i, i < b.txLen.toNat ∧ b.rxBuf.at i ≠ b.txBuf.at i) ∧ checkFrame b = .echo) ∨
    ((∀ i, i < b.txLen.toNat → b.rxBuf.at i = b.txBuf.at i) ∧
      chksum (readVersion b.version) b.id (receivedData b) ≠ b.rxBuf.at (b.rxLen.toNat - 1) ∧ checkFrame b = .checksum) ∨
    ((∀ i, i < b.txLen.toNat → b.rxBuf.at i = b.txBuf.at i) ∧
      chksum (readVersion b.version) b.id (receivedData b) = b.rxBuf.at (b.rxLen.toNat - 1) ∧ checkFrame b = .ok) := by
  by_cases he : echoMatches b = false
  · refine .inl ⟨?_, if_pos he⟩
    by_contra hne
    refine Bool.false_ne_true (he.symm.trans ((echoMatches_iff b).mpr fun i hi => ?_))
    by_contra h
    exact hne ⟨i, hi, h⟩
  · have hm := (echoMatches_iff b).mp (by simpa using he)
    by_cases hc : chksum (readVersion b.version) b.id (receivedData b) = b.rxBuf.at (b.rxLen.toNat - 1)
    · exact .inr (.inr ⟨hm, hc, (if_neg he).trans (if_neg (not_not.mpr hc))⟩)
    · exact .inr (.inl ⟨hm, hc, (if_neg he).trans (if_pos hc)⟩)

theorem receivedData_length (b : Block) : (receivedData b).length = b.rxLen.toNat - 4 := by simp [receivedData]

end Sys2Proof.Machine
end

