-- ==== Sys2Proof/Laws/Ops.lean ====
section
/-! SUPPORT. One lemma per shared operation that says everything it can do; provers cite these instead of unfolding. -/

namespace Sys2Proof.Machine

/-! The timeout (R137, R138). -/

theorem timedOut_iff (s : State) : timedOut s = true ↔ s.blk.timeoutUs.toNat < (s.now - s.blk.tStart).toNat :=
  decide_eq_true_iff

theorem timedOut_false_iff (s : State) : timedOut s = false ↔ (s.now - s.blk.tStart).toNat ≤ s.blk.timeoutUs.toNat :=
  decide_eq_false_iff_not.trans Nat.not_lt

/-! Requests (R139, R140, R145). -/

/-- Everything a request with `n <= 8` can do. -/
theorem request_cases (kind : FrameType) (v : Version) (id : BitVec 6) (n : BitVec 4) (data : List Byte) (s : State) :
    (s.blk.state ≠ stIdle ∧ request kind v id n data s = .next (rejectRequest s)) ∨
    (s.blk.state = stIdle ∧ s.tp.isOpen = true ∧ request kind v id n data s = .next (startTransaction kind v id n data s)) ∨
    (s.blk.state = stIdle ∧ s.tp.isOpen = false ∧ request kind v id n data s = .fault .transportClosed) := by
  by_cases h : s.blk.state = stIdle
  · cases ho : s.tp.isOpen
    · exact .inr (.inr ⟨h, rfl, by simp [request, acceptRequest, h, ho]⟩)
    · exact .inr (.inl ⟨h, rfl, by simp [request, acceptRequest, h, ho]⟩)
  · exact .inl ⟨h, if_pos h⟩

@[simp] theorem rejectRequest_blk (s : State) :
    (rejectRequest s).blk = { s.blk with state := stDone, error := s.blk.error ||| errState } := rfl
@[simp] theorem rejectRequest_tp (s : State) : (rejectRequest s).tp = s.tp := rfl
@[simp] theorem rejectRequest_response (s : State) : (rejectRequest s).response = [stDone] := rfl

section acceptedBlock
variable (kind : FrameType) (v : Version) (id : BitVec 6) (n : BitVec 4) (data : List Byte) (s : State)
@[simp] theorem acceptedBlock_error : (acceptedBlock kind v id n data s).error = 0x00 := by cases kind <;> rfl
@[simp] theorem acceptedBlock_baud : (acceptedBlock kind v id n data s).baud = s.blk.baud := by cases kind <;> rfl
@[simp] theorem acceptedBlock_version : (acceptedBlock kind v id n data s).version = versionCode v := by cases kind <;> rfl
@[simp] theorem acceptedBlock_frameType : (acceptedBlock kind v id n data s).frameType = frameTypeCode kind := by cases kind <;> rfl
@[simp] theorem acceptedBlock_id : (acceptedBlock kind v id n data s).id = id := by cases kind <;> rfl
@[simp] theorem acceptedBlock_numData : (acceptedBlock kind v id n data s).numData = n := by cases kind <;> rfl
@[simp] theorem acceptedBlock_rxCount : (acceptedBlock kind v id n data s).rxCount = 0 := by cases kind <;> rfl
@[simp] theorem acceptedBlock_rxBuf : (acceptedBlock kind v id n data s).rxBuf = Buf.zero := by cases kind <;> rfl
@[simp] theorem acceptedBlock_tStart : (acceptedBlock kind v id n data s).tStart = s.now := by cases kind <;> rfl
@[simp] theorem acceptedBlock_txBuf_master : (acceptedBlock .masterRequest v id n data s).txBuf =
    Buf.ofBytes (headerBytes id ++ data ++ [chksum v id data]) := rfl
@[simp] theorem acceptedBlock_txBuf_slave : (acceptedBlock .slaveResponse v id n data s).txBuf =
    Buf.ofBytes (headerBytes id) := rfl

/-- The lengths of an accepted master request (R110). -/
theorem acceptedBlock_lens_master (h : data.length = n.toNat) (hn : n.toNat ≤ 8) :
    (acceptedBlock .masterRequest v id n data s).txLen.toNat = 4 + n.toNat ∧
    (acceptedBlock .masterRequest v id n data s).rxLen.toNat = 4 + n.toNat := by
  constructor <;> show (BitVec.ofNat 4 (4 + data.length)).toNat = _ <;> rw [BitVec.toNat_ofNat] <;> omega

/-- The lengths of an accepted slave response (R111). -/
theorem acceptedBlock_lens_slave (hn : n.toNat ≤ 8) :
    (acceptedBlock .slaveResponse v id n data s).txLen.toNat = 3 ∧
    (acceptedBlock .slaveResponse v id n data s).rxLen.toNat = 4 + n.toNat := by
  constructor
  · rfl
  · show (BitVec.ofNat 4 (3 + n.toNat + 1)).toNat = _
    rw [BitVec.toNat_ofNat]; omega
end acceptedBlock

@[simp] theorem operandData_length (n : BitVec 4) (arg : BitVec 64) : (operandData n arg).length = n.toNat := by
  simp [operandData]

/-! STEP (R150 to R157). -/

/-- Everything STEP in BREAK can do (R153). -/
theorem stepBreak_cases (s : State) :
    (s.tp.breakDone = true ∧ stepBreak s =
      setState stBody { s with tp := s.tp.write (s.blk.txBuf.slice 1 (s.blk.txLen.toNat - 1)) }) ∨
    (s.tp.breakDone = false ∧ timedOut s = true ∧ stepBreak s = enterError errTimeout s) ∨
    (s.tp.breakDone = false ∧ timedOut s = false ∧ stepBreak s = s) := by
  cases hb : s.tp.breakDone <;> cases ht : timedOut s <;> simp [stepBreak, hb, ht]

/-- The number of bytes a STEP in BODY reads (R154). -/
abbrev readCount (s : State) : Nat := min s.tp.rxFifo.length (s.blk.rxLen.toNat - s.blk.rxCount.toNat)

@[simp] theorem receive_tp (s : State) : (receive s).tp = s.tp.read (readCount s) := rfl
@[simp] theorem receive_now (s : State) : (receive s).now = s.now := rfl
@[simp] theorem receive_response (s : State) : (receive s).response = s.response := rfl
@[simp] theorem receive_blk (s : State) : (receive s).blk = { s.blk with
    rxBuf := s.blk.rxBuf.store s.blk.rxCount.toNat (s.tp.rxFifo.take (readCount s))
    rxCount := s.blk.rxCount + BitVec.ofNat 4 (readCount s) } := rfl

/-- The count never wraps (R31, R56). -/
theorem receive_rxCount (s : State) :
    (receive s).blk.rxCount.toNat = s.blk.rxCount.toNat + readCount s := by
  have h1 := s.blk.rxLen.isLt
  have h2 := s.blk.rxCount.isLt
  simp only [receive_blk, readCount, BitVec.toNat_add, BitVec.toNat_ofNat]
  omega

theorem timedOut_receive (s : State) : timedOut (receive s) = timedOut s := rfl

/-- Everything the conclusion of a complete frame can do (R155). -/
theorem concludeFrame_cases (s : State) :
    (checkFrame s.blk = .ok ∧ concludeFrame s = setState stDone s) ∨
    (checkFrame s.blk = .echo ∧ concludeFrame s = enterError errEcho s) ∨
    (checkFrame s.blk = .checksum ∧ concludeFrame s = enterError errChecksum s) := by
  cases h : checkFrame s.blk <;> simp [concludeFrame, h, frameCheckError]

/-- Everything the end of a STEP in BODY can do (R155, R156). -/
theorem concludeBody_cases (s : State) :
    (s.blk.rxCount = s.blk.rxLen ∧ concludeBody s = concludeFrame s) ∨
    (s.blk.rxCount ≠ s.blk.rxLen ∧ s.blk.rxCount.toNat < s.blk.rxLen.toNat ∧ timedOut s = true ∧
      concludeBody s = enterError errTimeout s) ∨
    (s.blk.rxCount ≠ s.blk.rxLen ∧ ¬(s.blk.rxCount.toNat < s.blk.rxLen.toNat ∧ timedOut s = true) ∧
      concludeBody s = s) := by
  by_cases h : s.blk.rxCount = s.blk.rxLen
  · exact .inl ⟨h, by simp [concludeBody, h]⟩
  · by_cases h2 : s.blk.rxCount.toNat < s.blk.rxLen.toNat ∧ timedOut s = true
    · exact .inr (.inl ⟨h, h2.1, h2.2, by simp [concludeBody, h, h2]⟩)
    · exact .inr (.inr ⟨h, h2, by simp only [concludeBody, if_neg h, if_neg h2]⟩)

/-- Everything STEP can do, by the state it finds (R150). -/
theorem advance_cases (s : State) :
    ((s.blk.state = stOff ∨ s.blk.state = stIdle ∨ s.blk.state = stDone) ∧ advance s = s) ∨
    (s.blk.state = stBreak ∧ advance s = stepBreak s) ∨
    (s.blk.state = stBody ∧ advance s = concludeBody (receive s)) ∨
    (s.blk.state ∉ [stOff, stIdle, stBreak, stBody, stDone] ∧ advance s = enterError errMisc s) := by
  unfold advance
  split
  · exact .inl ⟨.inl ‹_›, rfl⟩
  split
  · exact .inl ⟨.inr (.inl ‹_›), rfl⟩
  split
  · exact .inl ⟨.inr (.inr ‹_›), rfl⟩
  split
  · exact .inr (.inl ⟨‹_›, rfl⟩)
  split
  · exact .inr (.inr (.inl ⟨‹_›, rfl⟩))
  · refine .inr (.inr (.inr ⟨?_, rfl⟩))
    simp only [List.mem_cons, List.not_mem_nil, or_false, not_or]
    exact ⟨‹_›, ‹_›, ‹_›, ‹_›, ‹_›⟩

/-! A step of the machine. -/

/-- Everything a step can do: wait, run the decoded command, or ignore a reserved opcode. -/
theorem step_cases (s : State) :
    (s.port = [] ∧ step s = .next s) ∨
    ∃ c rest, s.port = c :: rest ∧
      ((∃ i, decode c.cmd c.arg = .ok i ∧ step s = exec i (sample c rest s)) ∨
       (∃ e, decode c.cmd c.arg = .error e ∧ step s = .next (ignoreReserved (sample c rest s)))) := by
  cases hp : s.port with
  | nil => exact .inl ⟨rfl, by unfold step offer; rw [hp]⟩
  | cons c rest =>
    refine .inr ⟨c, rest, rfl, ?_⟩
    cases hd : decode c.cmd c.arg with
    | ok i => exact .inl ⟨i, rfl, by unfold step offer; rw [hp]; dsimp only; rw [hd]⟩
    | error e => exact .inr ⟨e, rfl, by unfold step offer; rw [hp]; dsimp only; rw [hd]⟩

/-- What the environment's steps can do to the block: nothing, or reset it (R130, R230). -/
theorem envSteps_blk (es : List EnvEvent) : ∀ s : State,
    ((envSteps es s).blk = s.blk ∧ .coreReset ∉ es) ∨ (envSteps es s).blk = Block.reset := by
  induction es with
  | nil => intro s; exact .inl ⟨rfl, by simp⟩
  | cons e es ih =>
    intro s
    rcases ih (envStep s e) with ⟨h, hm⟩ | h
    · cases e with
      | transport te => exact .inl ⟨h, by simp [hm]⟩
      | coreReset => exact .inr h
    · exact .inr h

theorem ite_self_actions {tp tp' : Transport} (c : Bool) (h : tp'.actions = tp.actions) :
    (if c then tp' else tp).actions = tp.actions := by
  cases c
  · rfl
  · exact h

/-- No step of the transport changes the record of the core's actions. -/
theorem react_actions (e : TpEvent) (tp : Transport) : (tp.react e).actions = tp.actions := by
  cases e with
  | rx b => rfl
  | breakRegistered => exact ite_self_actions _ rfl
  | fifoAfter bs => exact ite_self_actions _ rfl
  | closedByOwner => rfl

/-- The environment never changes the record of the core's actions. -/
theorem envSteps_actions (es : List EnvEvent) : ∀ s : State, (envSteps es s).tp.actions = s.tp.actions := by
  induction es with
  | nil => intro s; rfl
  | cons e es ih =>
    intro s
    refine (ih (envStep s e)).trans ?_
    cases e with
    | coreReset => rfl
    | transport te => exact react_actions te s.tp

end Sys2Proof.Machine
end

