-- ==== Sys2Proof/Laws/Exec.lean ====
section
/-! SUPPORT. What one command can do, said once: an inversion of STEP and one of exec, from which whole-machine rules follow. -/

namespace Sys2Proof.Machine

theorem lengthOk_iff (n : BitVec 4) : lengthOk n = true ↔ n.toNat ≤ 8 := by simp [lengthOk]

theorem baudOk_iff (baud : BitVec 32) : baudOk baud = true ↔ baud ≠ 0 := by simp [baudOk]

/-! Each command's equation. -/

theorem exec_mreq {n : BitVec 4} (h : n.toNat ≤ 8) (v : Version) (id : BitVec 6) (arg : BitVec 64) (s : State) :
    exec (.mreq v id n arg) s = request .masterRequest v id n (operandData n arg) s :=
  if_pos ((lengthOk_iff n).mpr h)

theorem exec_sresp {n : BitVec 4} (h : n.toNat ≤ 8) (v : Version) (id : BitVec 6) (s : State) :
    exec (.sresp v id n) s = request .slaveResponse v id n [] s :=
  if_pos ((lengthOk_iff n).mpr h)

theorem exec_step (s : State) : exec .step s = .next (respondState (advance s)) := rfl

/-- A reserved operand form is ignored (R78, R79). -/
theorem exec_of_not_wf {i : Instr} (h : i.wf = false) (s : State) : exec i s = .next (ignoreReserved s) := by
  cases i with
  | openTp baud => exact if_neg (Bool.eq_false_iff.mp h)
  | mreq v id n arg => exact if_neg (Bool.eq_false_iff.mp h)
  | sresp v id n => exact if_neg (Bool.eq_false_iff.mp h)
  | chk v id n arg => exact if_neg (Bool.eq_false_iff.mp h)
  | closeTp => cases h
  | step => cases h
  | getst => cases h
  | geterr => cases h
  | clrerr => cases h
  | rstsm => cases h
  | getfrm => cases h
  | pid id => cases h

/-! STEP. -/

/-- What STEP makes of the machine, case by case (R150 to R157). -/
inductive Advance (s : State) : State → Prop where
  | quiet (h : s.blk.state = stOff ∨ s.blk.state = stIdle ∨ s.blk.state = stDone) : Advance s s
  | toBody (h : s.blk.state = stBreak) (hb : s.tp.breakDone = true) : Advance s
      (setState stBody { s with tp := s.tp.write (s.blk.txBuf.slice 1 (s.blk.txLen.toNat - 1)) })
  | breakLate (h : s.blk.state = stBreak) (hb : s.tp.breakDone = false) (ht : timedOut s = true) :
      Advance s (enterError errTimeout s)
  | breakWaits (h : s.blk.state = stBreak) (hb : s.tp.breakDone = false) (ht : timedOut s = false) : Advance s s
  | bodyOk (h : s.blk.state = stBody) (hc : (receive s).blk.rxCount = s.blk.rxLen)
      (hf : checkFrame (receive s).blk = .ok) : Advance s (setState stDone (receive s))
  | bodyEcho (h : s.blk.state = stBody) (hc : (receive s).blk.rxCount = s.blk.rxLen)
      (hf : checkFrame (receive s).blk = .echo) : Advance s (enterError errEcho (receive s))
  | bodyChecksum (h : s.blk.state = stBody) (hc : (receive s).blk.rxCount = s.blk.rxLen)
      (hf : checkFrame (receive s).blk = .checksum) : Advance s (enterError errChecksum (receive s))
  | bodyLate (h : s.blk.state = stBody) (hc : (receive s).blk.rxCount.toNat < s.blk.rxLen.toNat)
      (ht : timedOut s = true) : Advance s (enterError errTimeout (receive s))
  | bodyWaits (h : s.blk.state = stBody) (hc : (receive s).blk.rxCount ≠ s.blk.rxLen)
      (ht : (receive s).blk.rxCount.toNat < s.blk.rxLen.toNat → timedOut s = false) : Advance s (receive s)
  | illegal (h : ¬ s.blk.state ∈ [stOff, stIdle, stBreak, stBody, stDone]) : Advance s (enterError errMisc s)

theorem advance_inv (s : State) : Advance s (advance s) := by
  rcases advance_cases s with ⟨h, e⟩ | ⟨h, e⟩ | ⟨h, e⟩ | ⟨h, e⟩ <;> rw [e]
  · exact .quiet h
  · rcases stepBreak_cases s with ⟨hb, e⟩ | ⟨hb, ht, e⟩ | ⟨hb, ht, e⟩ <;> rw [e]
    · exact .toBody h hb
    · exact .breakLate h hb ht
    · exact .breakWaits h hb ht
  · rcases concludeBody_cases (receive s) with ⟨hc, e⟩ | ⟨_, hc, ht, e⟩ | ⟨hc, ht, e⟩ <;> rw [e]
    · rcases concludeFrame_cases (receive s) with ⟨hf, e⟩ | ⟨hf, e⟩ | ⟨hf, e⟩ <;> rw [e]
      · exact .bodyOk h hc hf
      · exact .bodyEcho h hc hf
      · exact .bodyChecksum h hc hf
    · exact .bodyLate h hc ht
    · exact .bodyWaits h hc fun hlt => Bool.eq_false_iff.mpr fun hto => ht ⟨hlt, hto⟩
  · exact .illegal h

/-- No wrong lengths, no late poll: what a STEP in BODY that stays in BODY says of the time. -/
theorem timedOut_false_of_lt {s : State} {c l : BitVec 4} (hne : c ≠ l) (hle : c.toNat ≤ l.toNat)
    (h : c.toNat < l.toNat → timedOut s = false) : timedOut s = false :=
  h (Nat.lt_of_le_of_ne hle fun e => hne (BitVec.eq_of_toNat_eq e))

/-! exec. -/

/-- What a command makes of the block and the transport when it answers a next state. -/
inductive Effect (i : Instr) (s : State) : State → Prop where
  /-- A reserved operand form. -/
  | ignored (h : i.wf = false) : Effect i s (ignoreReserved s)
  | opened (baud : BitVec 32) (hi : i = .openTp baud) (hb : baud ≠ 0) : Effect i s
      (respond [] { s with tp := s.tp.openAt baud, blk := { s.blk with baud := baud, state := stIdle } })
  | closed (hi : i = .closeTp) : Effect i s (respond [] (setState stOff { s with tp := s.tp.shut }))
  | rejected (hr : i.isRequest = true) (hw : i.wf = true) (h : s.blk.state ≠ stIdle) : Effect i s (rejectRequest s)
  | acceptedMaster (v : Version) (id : BitVec 6) (n : BitVec 4) (arg : BitVec 64) (hi : i = .mreq v id n arg)
      (hn : n.toNat ≤ 8) (h : s.blk.state = stIdle) (ho : s.tp.isOpen = true) :
      Effect i s (startTransaction .masterRequest v id n (operandData n arg) s)
  | acceptedSlave (v : Version) (id : BitVec 6) (n : BitVec 4) (hi : i = .sresp v id n) (hn : n.toNat ≤ 8)
      (h : s.blk.state = stIdle) (ho : s.tp.isOpen = true) : Effect i s (startTransaction .slaveResponse v id n [] s)
  | stepped (hi : i = .step) (u : State) (hu : Advance s u) : Effect i s (respondState u)
  | cleared (hi : i = .clrerr) : Effect i s (respond [] (clearError s))
  | toIdle (hi : i = .rstsm) : Effect i s (respond [] (leaveToIdle s))
  /-- A command with no side effect (R58). -/
  | read (bs : List Byte) (hr : i.isRequest = false) (hw : i.wf = true) (hs : i ≠ .step) (hc : i ≠ .clrerr) :
      Effect i s (respond bs s)

theorem exec_inv {i : Instr} {s t : State} (h : exec i s = .next t) : Effect i s t := by
  cases hw : i.wf with
  | false => rw [exec_of_not_wf hw] at h; cases h; exact .ignored hw
  | true =>
    cases i with
    | openTp baud =>
      have e : exec (.openTp baud) s = _ := if_pos hw
      rw [e] at h; cases h; exact .opened baud rfl ((baudOk_iff baud).mp hw)
    | closeTp => cases h; exact .closed rfl
    | mreq v id n arg =>
      have hn := (lengthOk_iff n).mp hw
      rw [exec_mreq hn] at h
      rcases request_cases .masterRequest v id n (operandData n arg) s with ⟨hs, e⟩ | ⟨hs, ho, e⟩ | ⟨_, _, e⟩ <;>
        rw [e] at h <;> cases h
      · exact .rejected rfl hw hs
      · exact .acceptedMaster v id n arg rfl hn hs ho
    | sresp v id n =>
      have hn := (lengthOk_iff n).mp hw
      rw [exec_sresp hn] at h
      rcases request_cases .slaveResponse v id n [] s with ⟨hs, e⟩ | ⟨hs, ho, e⟩ | ⟨_, _, e⟩ <;>
        rw [e] at h <;> cases h
      · exact .rejected rfl hw hs
      · exact .acceptedSlave v id n rfl hn hs ho
    | step => cases h; exact .stepped rfl _ (advance_inv s)
    | getst => cases h; exact .read _ rfl rfl nofun nofun
    | geterr => cases h; exact .read _ rfl rfl nofun nofun
    | clrerr => cases h; exact .cleared rfl
    | rstsm => cases h; exact .toIdle rfl
    | getfrm => cases h; exact .read _ rfl rfl nofun nofun
    | pid id => cases h; exact .read _ rfl rfl nofun nofun
    | chk v id n arg =>
      have e : exec (.chk v id n arg) s = _ := if_pos hw
      rw [e] at h; cases h; exact .read _ rfl hw nofun nofun

/-- A property of a machine that a reset of the block, every step of the transport, every sampling and every command keep, every step
keeps. -/
theorem step_keeps {P : State → Prop}
    (henv : ∀ s e, P s → P (envStep s e))
    (hport : ∀ (s : State) rest now, P s → P { s with port := rest, now := now })
    (hexec : ∀ i s t, P s → Effect i s t → P t) (hign : ∀ s, P s → P (ignoreReserved s))
    {s t : State} (hs : P s) (h : step s = .next t) : P t := by
  rcases step_cases s with ⟨_, e⟩ | ⟨c, rest, _, hh⟩
  · rw [e] at h; cases h; exact hs
  · have henvs : ∀ (es : List EnvEvent) (s : State), P s → P (envSteps es s) := by
      intro es
      induction es with
      | nil => intro s h; exact h
      | cons e es ih => intro s h; exact ih _ (henv s e h)
    have hsam : P (sample c rest s) := by
      have h1 := hport _ rest s.now hs
      have h2 := henvs c.env _ h1
      have h3 := hport _ (envSteps c.env { s with port := rest }).port c.now h2
      exact h3
    rcases hh with ⟨i, _, e⟩ | ⟨_, _, e⟩ <;> rw [e] at h
    · exact hexec i _ t hsam (exec_inv h)
    · cases h; exact hign _ hsam

end Sys2Proof.Machine
end

