-- ==== Sys2Proof/Laws/Blocking.lean ====
section
/-! SUPPORT. What one command of a host does, and how a blocking sequence goes on. -/

namespace Sys2Proof.Machine

/-- A command of the host is that command in the machine as it samples it (R12, R57). The premise is the round trip of the encoding. -/
theorem issue_eq {i : Instr} (hi : decode (encode i).cmd (encode i).arg = .ok i) (d : Draw) (s : State) :
    issue i d s = exec i { envSteps d.env s with now := d.now } := by
  simp only [issue, step, offer, hi]
  rfl

theorem issue_step (d : Draw) (s : State) : issue .step d s = exec .step { envSteps d.env s with now := d.now } :=
  issue_eq rfl d s

theorem issue_geterr (d : Draw) (s : State) : issue .geterr d s = exec .geterr { envSteps d.env s with now := d.now } :=
  issue_eq rfl d s

theorem issue_getfrm (d : Draw) (s : State) : issue .getfrm d s = exec .getfrm { envSteps d.env s with now := d.now } :=
  issue_eq rfl d s

/-- A STEP of the host always answers a next state. -/
theorem issue_step_next (d : Draw) (s : State) :
    issue .step d s = .next (respondState (advance { envSteps d.env s with now := d.now })) :=
  issue_step d s

theorem issueFor_of_next {i : Instr} {d : Draw} {s t : State} (h : issue i d s = .next t) :
    issueFor i d s = .finished t.response t := by
  simp only [issueFor, h]

/-- Polling stops as soon as the last response is [DONE] (R178). -/
theorem pollDone_done (ds : List Draw) {s : State} (h : s.response = [stDone]) : pollDone ds s = .finished () s := by
  cases ds <;> exact if_pos h

/-- Polling goes on with a STEP while the last response is not [DONE] (R178). -/
theorem pollDone_cons (d : Draw) (ds : List Draw) {s t : State} (h : s.response ≠ [stDone]) (ht : issue .step d s = .next t) :
    pollDone (d :: ds) s = pollDone ds t := by
  simp only [pollDone, if_neg h, ht]

/-- A reception keeps the relations between the lengths (R33, R154). -/
theorem framed_receive {s : State} (h : s.blk.framed) : (receive s).blk.framed := by
  refine ⟨h.1, h.2.1, h.2.2.1, ?_⟩
  rw [receive_rxCount]
  have := h.2.2.2
  show _ ≤ s.blk.rxLen.toNat
  simp only [readCount]; omega

/-- The last byte of a frame with `data` is the byte after the data (R52). -/
theorem frame_last (id : BitVec 6) (data : List Byte) (c : Byte) :
    (headerBytes id ++ data ++ [c]).getD (3 + data.length) 0x00 = c := by
  rw [show 3 + data.length = data.length + 3 by omega]
  simp [headerBytes, List.getD_eq_getElem?_getD]

/-- Without a reset the environment leaves the block as it is (R130). -/
theorem envSteps_blk_of_noReset {es : List EnvEvent} (h : EnvEvent.coreReset ∉ es) : ∀ s : State, (envSteps es s).blk = s.blk := by
  induction es with
  | nil => intro s; rfl
  | cons e es ih =>
    intro s
    refine (ih (fun hm => h (.tail _ hm)) (envStep s e)).trans ?_
    cases e with
    | transport te => rfl
    | coreReset => exact absurd (.head _) h

/-- Bytes that arrive one after another stand at the end of the FIFO in that order (R130). -/
theorem envSteps_rx (bs : List Byte) : ∀ s : State, envSteps (bs.map fun b => .transport (.rx b)) s =
    { s with tp := { s.tp with rxFifo := s.tp.rxFifo ++ bs } } := by
  induction bs with
  | nil => intro s; simp [envSteps]
  | cons b bs ih =>
    intro s
    refine (ih (envStep s (.transport (.rx b)))).trans ?_
    simp [envStep, Transport.react]

end Sys2Proof.Machine
end

