-- ==== Sys2Proof/Laws/Encoding.lean ====
section
/-! SUPPORT. The fields of a packed command word (R71). -/

namespace Sys2Proof

section packCmd
variable (op : BitVec 4) (v : BitVec 1) (id : BitVec 6) (n : BitVec 4)

/-- Bit `k` of a packed command word, field by field (R71). -/
theorem packCmd_getLsbD (k : Nat) : (packCmd op v id n).getLsbD k =
    if k < 4 then op.getLsbD k else if k < 5 then v.getLsbD (k - 4) else if k < 11 then id.getLsbD (k - 5)
    else if k < 15 then n.getLsbD (k - 11) else false := by
  simp only [packCmd, BitVec.getLsbD_append]
  by_cases h1 : k < 4
  · simp [h1]
  · by_cases h2 : k < 5
    · simp [h1, h2, show k - 4 < 1 by omega]
    · by_cases h3 : k < 11
      · have e : k - 4 - 1 = k - 5 := by omega
        rw [if_neg h1, if_neg h2, if_pos h3, if_neg h1, if_neg (by omega), if_pos (by omega), e]
      · by_cases h4 : k < 15
        · have e : k - 4 - 1 - 6 = k - 11 := by omega
          rw [if_neg h1, if_neg h2, if_neg h3, if_pos h4, if_neg h1, if_neg (by omega), if_neg (by omega),
            if_pos (by omega), e]
        · simp [h1, h2, h3, h4, show ¬ k - 4 < 1 by omega, show ¬ k - 4 - 1 < 6 by omega,
            show ¬ k - 4 - 1 - 6 < 4 by omega]

theorem opField_packCmd : opField (packCmd op v id n) = op := by
  apply BitVec.eq_of_getLsbD_eq
  intro k hk
  simp only [opField, BitVec.getLsbD_extractLsb', packCmd_getLsbD, hk, decide_true, Bool.true_and, Nat.zero_add, if_true]

theorem idField_packCmd : idField (packCmd op v id n) = id := by
  apply BitVec.eq_of_getLsbD_eq
  intro k hk
  simp only [idField, BitVec.getLsbD_extractLsb', packCmd_getLsbD, hk, decide_true, Bool.true_and,
    show ¬ 5 + k < 4 by omega, show ¬ 5 + k < 5 by omega, show 5 + k < 11 by omega, if_true, if_false,
    show 5 + k - 5 = k by omega]

theorem lenField_packCmd : lenField (packCmd op v id n) = n := by
  apply BitVec.eq_of_getLsbD_eq
  intro k hk
  simp only [lenField, BitVec.getLsbD_extractLsb', packCmd_getLsbD, hk, decide_true, Bool.true_and,
    show ¬ 11 + k < 4 by omega, show ¬ 11 + k < 5 by omega, show ¬ 11 + k < 11 by omega, show 11 + k < 15 by omega,
    if_true, if_false, show 11 + k - 11 = k by omega]

theorem versionField_packCmd (ver : Version) : versionField (packCmd op (versionBit ver) id n) = ver := by
  unfold versionField
  rw [packCmd_getLsbD]
  cases ver <;> rfl

end packCmd

end Sys2Proof
end

