-- ==== Sys2Proof/Laws/PerInstr.lean ====
section
/-! SUPPORT. The opcode table as match and mask pairs (R74), command by command: the command word an instruction encodes to has, under
the mask 0x000F, the table's match value, and `rsv` is 0 (R81). -/

namespace Sys2Proof.Laws.OpcodeMatch

/-- R74, R81: under the mask 0x000F the command word is the opcode, and bit 15 is 0. -/
def Statement (i : Instr) : Prop :=
  (encode i).cmd &&& 0x000F = i.opcode.setWidth 16 ∧ (encode i).cmd.getLsbD 15 = false

/-- The bits of the mask. -/
theorem mask_getLsbD : ∀ k, k < 16 → (0x000F : BitVec 16).getLsbD k = decide (k < 4) := by decide

/-- The low nibble and the top bit of a packed command word. -/
theorem packCmd_match (op : BitVec 4) (v : BitVec 1) (id : BitVec 6) (n : BitVec 4) :
    packCmd op v id n &&& 0x000F = op.setWidth 16 ∧ (packCmd op v id n).getLsbD 15 = false := by
  constructor
  · apply BitVec.eq_of_getLsbD_eq
    intro k hk
    rw [BitVec.getLsbD_and, packCmd_getLsbD, mask_getLsbD k hk, BitVec.getLsbD_setWidth]
    by_cases h : k < 4
    · simp [h, hk]
    · simp [h, BitVec.getLsbD_of_ge op k (by omega)]
  · rw [packCmd_getLsbD]; rfl

theorem openTp (baud : BitVec 32) : Statement (.openTp baud) := packCmd_match _ _ _ _
theorem closeTp : Statement .closeTp := packCmd_match _ _ _ _
theorem mreq (v : Version) (id : BitVec 6) (n : BitVec 4) (arg : BitVec 64) : Statement (.mreq v id n arg) := packCmd_match _ _ _ _
theorem sresp (v : Version) (id : BitVec 6) (n : BitVec 4) : Statement (.sresp v id n) := packCmd_match _ _ _ _
theorem step : Statement .step := packCmd_match _ _ _ _
theorem getst : Statement .getst := packCmd_match _ _ _ _
theorem geterr : Statement .geterr := packCmd_match _ _ _ _
theorem clrerr : Statement .clrerr := packCmd_match _ _ _ _
theorem rstsm : Statement .rstsm := packCmd_match _ _ _ _
theorem getfrm : Statement .getfrm := packCmd_match _ _ _ _
theorem pid (id : BitVec 6) : Statement (.pid id) := packCmd_match _ _ _ _
theorem chk (v : Version) (id : BitVec 6) (n : BitVec 4) (arg : BitVec 64) : Statement (.chk v id n arg) := packCmd_match _ _ _ _

end Sys2Proof.Laws.OpcodeMatch
end

