-- ==== Sys2Proof/Tests/Slice0.lean ====
section
/-! SUPPORT. Tests of the model's own: the ill-formed terms, decoding from words written out bit by bit, one or two steps per command,
and a witness for the hypotheses of every statement. Expected values are those of spec/95_test_vectors.md, named by their numbers
there, or hand calculations from the encoding tables of spec/30_encoding.md. -/

namespace Sys2Proof.Tests

open Sys2Proof Sys2Proof.Machine

/-! ## WellFormed: a term each check refuses (R78, R79) -/

theorem test_wf_refuses_open_baud_zero : (Instr.openTp 0).wf = false := by decide
theorem test_wf_refuses_mreq_nine_bytes : (Instr.mreq .v1 0x00 9 0).wf = false := by decide
theorem test_wf_refuses_sresp_fifteen_bytes : (Instr.sresp .v1 0x00 15).wf = false := by decide
theorem test_wf_refuses_chk_nine_bytes : (Instr.chk .v1 0x00 9 0).wf = false := by decide
theorem test_wf_accepts_eight_bytes : (Instr.mreq .v2 0x3F 8 0).wf = true := by decide

/-! ## Decoding (R71, R73): `rsv n id v op` from bit 15 down -/

theorem test_decode_open : decode 0b0_0000_000000_0_0001 0x0000000100004B00 = .ok (.openTp 19200) := by rfl
theorem test_decode_close : decode 0b0_0000_000000_0_0010 0 = .ok .closeTp := by rfl
theorem test_decode_mreq : decode 0b0_0010_010000_1_0011 0x0201 = .ok (.mreq .v2 0x10 2 0x0201) := by rfl
theorem test_decode_sresp : decode 0b0_0010_100000_0_0100 0 = .ok (.sresp .v1 0x20 2) := by rfl
theorem test_decode_step : decode 0b1_0000_000000_0_0101 0 = .ok .step := by rfl
theorem test_decode_getst : decode 0b1_1111_111111_1_0110 0 = .ok .getst := by rfl
theorem test_decode_geterr : decode 0b0_0000_000000_0_0111 0 = .ok .geterr := by rfl
theorem test_decode_clrerr : decode 0b0_0000_000000_0_1000 0 = .ok .clrerr := by rfl
theorem test_decode_rstsm : decode 0b0_0000_000000_0_1001 0 = .ok .rstsm := by rfl
theorem test_decode_getfrm : decode 0b0_0000_000000_0_1010 0 = .ok .getfrm := by rfl
theorem test_decode_pid : decode 0b0_0011_111101_1_1011 0 = .ok (.pid 0x3D) := by rfl
theorem test_decode_chk : decode 0b0_0010_111100_1_1100 0x0201 = .ok (.chk .v2 0x3C 2 0x0201) := by rfl
theorem test_decode_reserved : decode 0b0_0000_000000_0_1101 0 = .error (.reservedOpcode 0xD) := by rfl
theorem test_encode_mreq : encode (.mreq .v2 0x21 8 0x0807060504030201) = ⟨0b0_1000_100001_1_0011, 0x0807060504030201⟩ := by rfl
theorem test_table_word : decodeTableWord 80 0x0000000000004B000001 = some (.openTp 19200) := by rfl

theorem test_version_codes : versionCode .v1 = 0x01 ∧ versionCode .v2 = 0x02 ∧ frameTypeCode .masterRequest = 0x01 ∧
    frameTypeCode .slaveResponse = 0x02 := by decide

/-! ## Small states -/

/-- IDLE at 19200 baud with the transport open. -/
def idle : State :=
  { State.reset with
    blk := { Block.reset with state := stIdle, baud := 19200 }
    tp := { Transport.reset with isOpen := true } }

/-- `s` with one command at the port. -/
def given (cmd : BitVec 16) (arg : BitVec 64) (now : BitVec 32) (s : State) : State :=
  { s with port := [⟨[], cmd, arg, now⟩] }

/-- A Bool test of the machine after one step. -/
def stepGives (s : State) (test : State → Bool) : Bool :=
  match step s with
  | .next t => test t
  | .fault _ => false
  | .refused _ => false

/-- BREAK after vector B1. -/
def inBreak : State := startTransaction .masterRequest .v2 0x10 2 [0x01, 0x02] idle

/-- BREAK after vector B6. -/
def inBreakSlave : State := startTransaction .slaveResponse .v1 0x20 2 [] idle

/-- BODY, with `bytes` in the FIFO. -/
def inBody (s : State) (bytes : List Byte) : State :=
  setState stBody { s with tp := { s.tp with rxFifo := bytes } }

/-- DONE with an error. -/
def doneWith (e : Byte) : State := { inBreak with blk := { inBreak.blk with state := stDone, error := e } }

/-! ## One step of each command -/

-- T1
theorem test_open_from_off : stepGives (given 0x0001 0x4B00 0 State.reset) (fun t =>
    t.blk.state == 0x02 && t.blk.baud == 19200 && t.tp.isOpen && t.tp.actions == [.tpOpen 19200] && t.response == []) = true := by
  decide
-- E13
theorem test_open_baud_zero_ignored : stepGives (given 0x0001 0xFFFFFFFF00000000 0 State.reset) (fun t =>
    t.blk == State.reset.blk && t.tp == State.reset.tp && t.refused) = true := by decide
-- T4
theorem test_close_from_break : stepGives (given 0x0002 0 0 inBreak) (fun t =>
    t.blk == { inBreak.blk with state := 0x01 } && t.tp.isOpen == false && t.response == []) = true := by decide
-- B4
theorem test_mreq_frame : stepGives (given 0x4433 0x0807060504030201 0 idle) (fun t =>
    t.blk.txBuf.toList == [0x00, 0x55, 0x61, 0x01, 0x02, 0x03, 0x04, 0x05, 0x06, 0x07, 0x08, 0x7A] &&
      t.blk.txLen == 12 && t.blk.rxLen == 12 && t.blk.timeoutUs == 12480 && t.response == [0x04]) = true := by decide
-- T10
theorem test_mreq_rejected_in_off : stepGives (given 0x0003 0 0 State.reset) (fun t =>
    t.blk == { State.reset.blk with state := 0x10, error := 0x01 } && t.tp == State.reset.tp && t.response == [0x10]) = true := by
  decide
-- B6
theorem test_sresp_header : stepGives (given 0x1404 0 0 idle) (fun t =>
    t.blk.txBuf.toList == [0x00, 0x55, 0x20, 0, 0, 0, 0, 0, 0, 0, 0, 0] && t.blk.txLen == 3 && t.blk.rxLen == 6 &&
      t.blk.timeoutUs == 6240 && t.tp.actions == [.tpDrain, .tpBreak]) = true := by decide
-- P7
theorem test_sresp_on_closed_transport : step (given 0x1404 0 0 { idle with tp := Transport.reset }) = .fault .transportClosed := by
  rfl
-- F4
theorem test_step_echo_before_checksum : stepGives (given 0x0005 0 2 (inBody inBreak [0x00, 0x55, 0x50, 0x03, 0x02, 0xAA]))
    (fun t => t.blk.state == 0x10 && t.blk.error == 0x02 && t.response == [0x10]) = true := by decide
-- T19
theorem test_step_timeout_in_body : stepGives (given 0x0005 0 6241 (inBody inBreakSlave [0x00, 0x55, 0x20, 0x12])) (fun t =>
    t.blk.state == 0x10 && t.blk.error == 0x04 && t.blk.rxCount == 4 &&
      t.blk.rxBuf.toList == [0x00, 0x55, 0x20, 0x12, 0, 0, 0, 0, 0, 0, 0, 0]) = true := by decide
-- S1
theorem test_getst_after_reset : stepGives (given 0x0006 0 0 State.reset) (fun t => t.response == [0x01]) = true := by decide
-- S4
theorem test_geterr_keeps_the_error : stepGives (given 0x0007 0 0 (doneWith 0x04)) (fun t =>
    t.response == [0x04] && t.blk.error == 0x04) = true := by decide
-- S5
theorem test_clrerr_keeps_the_state : stepGives (given 0x0008 0 0 (doneWith 0x09)) (fun t =>
    t.blk.error == 0x00 && t.blk.state == 0x10 && t.response == []) = true := by decide
-- T6
theorem test_rstsm_keeps_the_error : stepGives (given 0x0009 0 0 (doneWith 0x08)) (fun t =>
    t.blk.state == 0x02 && t.blk.error == 0x08 && t.tp == inBreak.tp && t.response == []) = true := by decide
-- S3
theorem test_getfrm_reset_frame : stepGives (given 0x000A 0 0 State.reset) (fun t => t.response == [0x01, 0x00, 0x00]) = true := by
  decide
-- S7, with two data bytes expected
theorem test_getfrm_partial_response : stepGives (given 0x000A 0 0
    { inBreakSlave with blk := { inBreakSlave.blk with rxCount := 4, rxBuf := Buf.ofBytes [0x00, 0x55, 0x20, 0x12] } })
    (fun t => t.response == [0x02, 0x20, 0x02, 0x12, 0x00]) = true := by decide
-- section 2.2, ignored fields set
theorem test_pid_ignored_fields : stepGives (given 0x1FBB 0 0 State.reset) (fun t => t.response == [0x7D]) = true := by decide
theorem test_pid_zero : stepGives (given 0x000B 0 0 State.reset) (fun t => t.response == [0x80]) = true := by decide
-- K6
theorem test_chk_end_around_carry : stepGives (given 0x17FC 0x9080 0 State.reset) (fun t => t.response == [0x2F]) = true := by decide
-- K4
theorem test_chk_diagnostic : stepGives (given 0x17BC 0x0201 0 State.reset) (fun t => t.response == [0xFC]) = true := by decide

/-! ## Witnesses: the hypotheses of each statement, met together -/

/-- A state in which BODY waits for the last of the six bytes of B6. -/
def fiveBytesIn : State :=
  let s := inBody inBreakSlave []
  { s with blk := { s.blk with rxCount := 5, rxBuf := Buf.ofBytes [0x00, 0x55, 0x20, 0x12, 0x34] } }

/-- A state with an illegal state value. -/
def illegal : State := { idle with blk := { idle.blk with state := 0x03 } }

theorem witness_EncodeOfDecodeKeepsUsedBits : decode 0x9213 0x0201 = .ok (.mreq .v2 0x10 2 0x0201) := by rfl

theorem witness_IgnoredFieldsHaveNoEffect_fields :
    decode 0x07AB 0 = .ok (.pid 0x3D) ∧ 0x9FBB &&& (Instr.pid 0x3D).usedCmdBits = 0x07AB &&& (Instr.pid 0x3D).usedCmdBits ∧
      0xFF &&& (Instr.pid 0x3D).usedArgBits = 0 &&& (Instr.pid 0x3D).usedArgBits := ⟨by rfl, by decide, by decide⟩

theorem witness_IgnoredFieldsHaveNoEffect_bytes : ∀ k, k < (2 : BitVec 4).toNat →
    (0x0201 : BitVec 64).extractLsb' (8 * k) 8 = (0xFFFFFFFFFFFF0201 : BitVec 64).extractLsb' (8 * k) 8 := by decide

theorem witness_ReservedOpcodesRejected :
    (0xFFFF : BitVec 16).extractLsb' 0 4 ∈ [0x0#4, 0xD#4, 0xE#4, 0xF#4] ∧
      (0x000D : BitVec 16).extractLsb' 0 4 ∈ [0x0#4, 0xD#4, 0xE#4, 0xF#4] ∧
      (0x000C : BitVec 16).extractLsb' 0 4 ∉ [0x0#4, 0xD#4, 0xE#4, 0xF#4] ∧
      (0x0001 : BitVec 16).extractLsb' 0 4 ∉ [0x0#4, 0xD#4, 0xE#4, 0xF#4] := by decide

theorem witness_StepRunsDecodedCommand :
    (given 0x0005 0 7 inBreak).port = [⟨[], 0x0005, 0, 7⟩] ∧ decode 0x0005 0 = .ok .step := ⟨rfl, rfl⟩

theorem witness_StepIgnoresReservedOpcode :
    (given 0xFFFF 0 7 inBreak).port = [⟨[], 0xFFFF, 0, 7⟩] ∧ (0xFFFF : BitVec 16).extractLsb' 0 4 ∈ [0x0#4, 0xD#4, 0xE#4, 0xF#4] := by
  decide

theorem witness_WaitsForACommand : State.reset.port = [] := rfl

theorem witness_PlacedCommandRunsNext : decodeTableWord 16 0x0003 = some (.mreq .v1 0x00 0 0) := by rfl

theorem witness_StepTakesOneCommand : ∃ t, (given 0xFFFF 0 7 inBreak).port = ⟨[], 0xFFFF, 0, 7⟩ :: [] ∧
    step (given 0xFFFF 0 7 inBreak) = .next t ∧ ({ inBreak with refused := true } : State).refused = true := ⟨_, rfl, rfl, rfl⟩

theorem witness_EnvironmentAndBlockAreApart : EnvEvent.coreReset ∉ breakCompletes := by decide

theorem witness_PidInjective : ∃ t w, exec (.pid 0x3D) idle = .next t ∧ exec (.pid 0x3D) inBreak = .next w ∧
    t.response = w.response := ⟨_, _, rfl, rfl, by decide⟩

theorem witness_DiagnosticVariantsAgree : (0x3C : BitVec 6) ≠ 0x3D ∧ (0x3E : BitVec 6) ≠ 0x3D := by decide

theorem witness_ChecksumCorners : (0x3B : BitVec 6) ≠ 0x3C ∧ (0x3B : BitVec 6) ≠ 0x3D ∧ (0x3E : BitVec 6) ≠ 0x3C ∧
    (0x3E : BitVec 6) ≠ 0x3D ∧ ((0x3C : BitVec 6) = 0x3C ∨ (0x3C : BitVec 6) = 0x3D) ∧
    ((0x3D : BitVec 6) = 0x3C ∨ (0x3D : BitVec 6) = 0x3D) := by decide

theorem witness_ChkCommand : (8 : BitVec 4).toNat ≤ 8 ∧ (0 : BitVec 4).toNat ≤ 8 := by decide

theorem witness_MasterFrameLayout : (List.replicate 8 (0xFF : Byte)).length ≤ 8 ∧ 7 < (List.replicate 8 (0xFF : Byte)).length ∧
    ([] : List Byte).length ≤ 8 ∧ 4 + ([] : List Byte).length ≤ 11 ∧ 11 < 12 := by decide

theorem witness_SlaveFrameLayout : (8 : BitVec 4).toNat ≤ 8 ∧ (0 : BitVec 4).toNat ≤ 8 ∧ 3 ≤ 3 ∧ 11 < 12 := by decide

theorem witness_CheckFrameResult :
    4 ≤ inBreakSlave.blk.rxLen.toNat ∧ inBreakSlave.blk.version = versionCode .v1 ∧ inBreak.blk.version = versionCode .v2 ∧
      checkFrame { inBreakSlave.blk with rxBuf := Buf.ofBytes [0x80] } = .echo ∧
      checkFrame { inBreakSlave.blk with rxBuf := Buf.ofBytes [0x00, 0x55, 0x20, 0x12, 0x34, 0x99] } = .checksum ∧
      checkFrame { inBreakSlave.blk with rxBuf := Buf.ofBytes [0x00, 0x55, 0x20, 0x12, 0x34, 0xB9] } = .ok := by decide

theorem witness_EchoDecidesMasterFrames :
    (8 : BitVec 4).toNat ≤ 8 ∧ (List.replicate 8 (0x01 : Byte)).length = (8 : BitVec 4).toNat ∧
      ([] : List Byte).length = (0 : BitVec 4).toNat ∧
      checkFrame { acceptedBlock .slaveResponse .v1 0x20 2 [] idle with rxBuf := Buf.ofBytes [0x00, 0x55, 0x20] } ≠ .echo := by decide

theorem witness_ChecksumRoundTrip :
    (8 : BitVec 4).toNat ≤ 8 ∧ (List.replicate 8 (0x01 : Byte)).length = (8 : BitVec 4).toNat := by decide

theorem witness_OpenCommand : (1 : BitVec 32) ≠ 0 ∧ (0xFFFFFFFF : BitVec 32) ≠ 0 := by decide

theorem witness_RequestRejectedUnlessIdle : (8 : BitVec 4).toNat ≤ 8 ∧ State.reset.blk.state ≠ stIdle ∧ inBreak.blk.state ≠ stIdle ∧
    (doneWith 0x04).blk.state ≠ stIdle ∧ illegal.blk.state ≠ stIdle := by decide

theorem witness_MreqAccepted : (8 : BitVec 4).toNat ≤ 8 ∧ (0 : BitVec 4).toNat ≤ 8 ∧ idle.blk.state = stIdle ∧
    idle.tp.isOpen = true := by decide

theorem witness_SrespAccepted : (8 : BitVec 4).toNat ≤ 8 ∧ (0 : BitVec 4).toNat ≤ 8 ∧ idle.blk.state = stIdle ∧
    idle.tp.isOpen = true := by decide

theorem witness_RequestOnClosedTransportFaults : (8 : BitVec 4).toNat ≤ 8 ∧
    ({ idle with tp := Transport.reset } : State).blk.state = stIdle ∧
    ({ idle with tp := Transport.reset } : State).tp.isOpen = false := by decide

theorem witness_ReservedOperandsIgnored : 8 < (9 : BitVec 4).toNat ∧ 8 < (15 : BitVec 4).toNat := by decide

theorem witness_EveryCommandRuns :
    (accepts (.mreq .v1 0x00 0 0) { idle with tp := Transport.reset } ∧ Transport.reset.isOpen = false) ∧
      ¬(accepts (.mreq .v1 0x00 0 0) idle ∧ idle.tp.isOpen = false) := by decide

theorem witness_StepQuiescent : State.reset.blk.state = stOff ∧ idle.blk.state = stIdle ∧ (doneWith 0).blk.state = stDone := by decide

-- T15, T17 and T16
theorem witness_StepInBreak : inBreak.blk.state = stBreak ∧
    ({ inBreak.tp with breakDone := true } : Transport).breakDone = true ∧ inBreak.tp.breakDone = false ∧
    inBreak.blk.timeoutUs.toNat < ((6241 : BitVec 32) - inBreak.blk.tStart).toNat ∧
    ((6240 : BitVec 32) - inBreak.blk.tStart).toNat ≤ inBreak.blk.timeoutUs.toNat := by decide

-- T18, T19 and T20: the clauses of StepInBody at their boundaries
theorem witness_StepInBody :
    fiveBytesIn.blk.state = stBody ∧ fiveBytesIn.blk.rxCount.toNat ≤ fiveBytesIn.blk.rxLen.toNat ∧
      BitVec.ofNat 4 (fiveBytesIn.blk.rxCount.toNat + 1) = fiveBytesIn.blk.rxLen ∧
      BitVec.ofNat 4 (fiveBytesIn.blk.rxCount.toNat + 0) ≠ fiveBytesIn.blk.rxLen ∧
      fiveBytesIn.blk.timeoutUs.toNat < ((6241 : BitVec 32) - fiveBytesIn.blk.tStart).toNat ∧
      ((6240 : BitVec 32) - fiveBytesIn.blk.tStart).toNat ≤ fiveBytesIn.blk.timeoutUs.toNat := by decide

theorem witness_ReceptionFillsInOrder : ∃ t, fiveBytesIn.blk.state = stBody ∧ fiveBytesIn.blk.framed ∧
    exec .step fiveBytesIn = .next t := ⟨_, by decide, by decide, rfl⟩

theorem witness_StepOnIllegalState : ¬ illegal.blk.legalState := by decide

/-- A draw with nothing from the environment. -/
def quietDraw (now : BitVec 32) : Draw := ⟨[], now⟩

theorem quietDraw_noReset (now : BitVec 32) : (quietDraw now).noReset := by simp [Draw.noReset, quietDraw]

theorem witness_LateStepsEndTheTransaction_body : ∃ t, fiveBytesIn.blk.inTransaction ∧
    fiveBytesIn.blk.rxCount.toNat ≤ fiveBytesIn.blk.rxLen.toNat ∧ (quietDraw 6241).noReset ∧ (quietDraw 6241).late fiveBytesIn.blk ∧
    issue .step (quietDraw 6241) fiveBytesIn = .next t :=
  ⟨_, by decide, by decide, quietDraw_noReset _, show _ < _ by decide, rfl⟩

/-- BREAK with the break completed just before a late STEP. -/
theorem witness_LateStepsEndTheTransaction_break : ∃ t u, inBreak.blk.inTransaction ∧
    inBreak.blk.rxCount.toNat ≤ inBreak.blk.rxLen.toNat ∧ Draw.noReset ⟨breakCompletes, 6241⟩ ∧
    Draw.late ⟨breakCompletes, 6241⟩ inBreak.blk ∧ issue .step ⟨breakCompletes, 6241⟩ inBreak = .next t ∧ t.blk.state = stBody ∧
    (quietDraw 6242).noReset ∧ (quietDraw 6242).late inBreak.blk ∧ issue .step (quietDraw 6242) t = .next u :=
  ⟨_, _, by decide, by decide, by simp [Draw.noReset, breakCompletes], show _ < _ by decide, rfl, by decide, quietDraw_noReset _,
    show _ < _ by decide, rfl⟩

theorem witness_GetfrmCommand : inBreak.blk.frameType = typeMaster ∧ inBreakSlave.blk.frameType ≠ typeMaster ∧
    inBreakSlave.blk.frameType = typeSlave := by decide

theorem witness_ResponseOfEachCommand : ∃ t, (Instr.mreq .v1 0x00 8 0).wf = true ∧ exec (.mreq .v1 0x00 8 0) idle = .next t :=
  ⟨_, by decide, rfl⟩

theorem witness_TimeoutBudgetIsExact : Config.legal ⟨100⟩ ∧ Config.legal ⟨1000⟩ ∧ (12 : BitVec 4).toNat ≤ 12 ∧
    10000000 < (10000001 : BitVec 32).toNat := by decide

-- W6, and the same time one wrap later
theorem witness_TimedOutAcrossTheWrap :
    (9074 : BitVec 32) = 4294967000 + BitVec.ofNat 32 9370 ∧ 9370 < 2 ^ 32 ∧
      (9074 : BitVec 32) = 4294967000 + BitVec.ofNat 32 (2 ^ 32 + 9370) := by decide

theorem witness_StateMovesAlongTheTable : ∃ t, exec .step { inBreak with now := 6241 } = .next t ∧
    t.blk.state ≠ inBreak.blk.state := ⟨_, rfl, by decide⟩

theorem witness_ErrorsAreClearedOnlyBy :
    (∃ t, exec .rstsm (doneWith 0x04) = .next t ∧ Instr.rstsm ≠ .clrerr ∧ ¬ accepts .rstsm (doneWith 0x04)) ∧
      (∃ t, exec .clrerr (doneWith 0x04) = .next t ∧ Instr.clrerr = .clrerr) ∧
      ∃ t, exec (.mreq .v1 0x00 8 0) idle = .next t ∧ accepts (.mreq .v1 0x00 8 0) idle :=
  ⟨⟨_, rfl, by decide, by decide⟩, ⟨_, rfl, rfl⟩, _, rfl, by decide⟩

theorem witness_ErrorEntry : ∃ t, exec (.mreq .v1 0x00 8 0) inBreak = .next t ∧
    inBreak.blk.error ||| t.blk.error ≠ inBreak.blk.error := ⟨_, rfl, by decide⟩

-- F6: the slave used V2
theorem witness_ErrorEntry_checksum : ∃ t,
    exec .step { fiveBytesIn with tp := { fiveBytesIn.tp with rxFifo := [0x99] } } = .next t ∧
    fiveBytesIn.blk.error ||| t.blk.error ≠ fiveBytesIn.blk.error ∧ t.blk.error = 0x08 := ⟨_, rfl, by decide, by decide⟩

theorem witness_WritersOfEachElement : ∃ t, exec .closeTp inBreak = .next t ∧ (∀ baud, Instr.closeTp ≠ .openTp baud) ∧
    ¬ accepts .closeTp inBreak ∧ ¬(Instr.closeTp = .step ∧ inBreak.blk.state = stBody) :=
  ⟨_, rfl, nofun, by decide, by decide⟩

theorem witness_TransportActionsOfEachCommand : ∃ t, exec .closeTp inBreak = .next t ∧ t.tp ≠ inBreak.tp := ⟨_, rfl, by decide⟩

theorem witness_InvariantKept : ∃ t, (given 0x0005 0 0 inBreak).Inv ∧ step (given 0x0005 0 0 inBreak) = .next t :=
  ⟨_, by decide, rfl⟩

theorem witness_BuffersStaySound : ∃ t, (given 0x0005 0 0 inBreak).Inv ∧ (given 0x0005 0 0 inBreak).blk.buffersSound ∧
    step (given 0x0005 0 0 inBreak) = .next t :=
  ⟨_, by decide, ⟨fun _ => ⟨by decide, fun _ => by decide⟩, fun i _ => Buf.at_zero i⟩, rfl⟩

theorem witness_TransactionOrderKept : ∃ t, (given 0x0005 0 0 inBreak).ordered ∧ step (given 0x0005 0 0 inBreak) = .next t :=
  ⟨_, ⟨fun _ => ⟨[], rfl⟩, fun h => absurd h (by decide)⟩, rfl⟩

theorem witness_MasterRequestNeverEndsInChecksum : ∃ t, inBreak.Inv ∧ inBreak.blk.buffersSound ∧
    inBreak.blk.frameType = typeMaster ∧ inBreak.blk.inTransaction ∧ exec .step inBreak = .next t :=
  ⟨_, by decide, ⟨fun _ => ⟨by decide, fun _ => by decide⟩, fun i _ => Buf.at_zero i⟩, by decide, by decide, rfl⟩

theorem witness_BlockingOutsideIdleEndsAtOnce : (8 : BitVec 4).toNat ≤ 8 ∧ inBreak.blk.state ≠ stIdle ∧ (quietDraw 0).env = [] := by
  decide

theorem witness_PollingReachesDone : inBreak.blk.inTransaction ∧ inBreak.blk.framed ∧ inBreak.response ≠ [stDone] ∧
    (∀ d ∈ [quietDraw 6240], d.noReset) ∧ (quietDraw 6241).noReset ∧ (quietDraw 6242).noReset ∧
    (quietDraw 6241).late inBreak.blk ∧ (quietDraw 6242).late inBreak.blk :=
  ⟨by decide, by decide, by decide, fun d hd => by rw [List.mem_singleton.mp hd]; exact quietDraw_noReset _, quietDraw_noReset _,
    quietDraw_noReset _, show _ < _ by decide, show _ < _ by decide⟩

theorem witness_LoopbackMasterRequestSucceeds : (8 : BitVec 4).toNat ≤ 8 ∧ (0 : BitVec 4).toNat ≤ 8 ∧ idle.blk.state = stIdle ∧
    idle.tp.isOpen = true := by decide

theorem witness_SlaveResponseIsDelivered : (8 : BitVec 4).toNat ≤ 8 ∧
    (List.replicate 8 (0x01 : Byte)).length = (8 : BitVec 4).toNat ∧ idle.blk.state = stIdle ∧ idle.tp.isOpen = true := by decide

end Sys2Proof.Tests
end

/-! PROOFS of the family 00_scope. The scope of a step: it runs the command in front of the port and takes no other (R4, R57,
R70). -/

namespace Sys2Proof.Machine

/-! The equations of `step`, by what the port offers. -/

/-- With no command waiting the block takes no action (R231). -/
theorem step_of_port_nil {s : State} (hp : s.port = []) : step s = .next s := by
  simp only [step, offer, hp]

/-- A command of the table is run in the machine as it samples it (R57, R70). -/
theorem step_of_decode_ok {s : State} {c : PortEntry} {rest : List PortEntry} {i : Instr} (hp : s.port = c :: rest)
    (hd : decode c.cmd c.arg = .ok i) : step s = exec i (sample c rest s) := by
  simp only [step, offer, hp, hd]

/-- A reserved opcode is taken from the port and ignored (R78). -/
theorem step_of_decode_error {s : State} {c : PortEntry} {rest : List PortEntry} {e : DecodeError}
    (hp : s.port = c :: rest) (hd : decode c.cmd c.arg = .error e) :
    step s = .next (ignoreReserved (sample c rest s)) := by
  simp only [step, offer, hp, hd]

/-! Placing a command (log 1). -/

/-- A placed command samples the very machine it was placed in: it comes at the present time, with no step of the environment
before it. -/
theorem sample_offerNext (w : CommandWord) (s : State) :
    sample ⟨[], w.cmd, w.arg, s.now⟩ s.port (offerNext w s) = s := rfl

theorem decode_of_decodeTableWord {nbits w : Nat} {i : Instr} (h : decodeTableWord nbits w = some i) :
    decode (wordsOfTable nbits w).cmd (wordsOfTable nbits w).arg = .ok i := by
  unfold decodeTableWord at h
  cases hd : decode (wordsOfTable nbits w).cmd (wordsOfTable nbits w).arg with
  | ok j => rw [hd] at h; exact congrArg Except.ok (Option.some.inj h)
  | error e => rw [hd] at h; cases h

/-! What a command leaves of the machine outside the block, the transport and the response. -/

/-- From `s` to `t` the port, the time and the parameter are unchanged, and the mark of a refused run is not cleared (R35,
R206). -/
structure KeepsEnvelope (s t : State) : Prop where
  port : t.port = s.port
  now : t.now = s.now
  cfg : t.cfg = s.cfg
  refused : s.refused = true → t.refused = true

theorem KeepsEnvelope.of_update (s : State) (blk : Block) (tp : Transport) (response : List Byte) :
    KeepsEnvelope s { s with blk := blk, tp := tp, response := response } :=
  ⟨rfl, rfl, rfl, id⟩

/-- A reserved encoding writes the mark, and sets it (R78). -/
theorem KeepsEnvelope.of_ignoreReserved (s : State) : KeepsEnvelope s (ignoreReserved s) :=
  ⟨rfl, rfl, rfl, fun _ => rfl⟩

theorem KeepsEnvelope.then_respondState {s t : State} (h : KeepsEnvelope s t) : KeepsEnvelope s (respondState t) :=
  ⟨h.port, h.now, h.cfg, h.refused⟩

/-- Every case of STEP writes at most the block and the transport (R150 to R157). -/
theorem Advance.keepsEnvelope {s u : State} (h : Advance s u) : KeepsEnvelope s u := by
  cases h <;> exact .of_update s _ _ _

/-- No command writes the port, the time or the parameter, and none clears the mark (R35, R206). -/
theorem Effect.keepsEnvelope {i : Instr} {s t : State} (h : Effect i s t) : KeepsEnvelope s t := by
  cases h with
  | ignored => exact .of_ignoreReserved s
  | stepped _ _ hu => exact hu.keepsEnvelope.then_respondState
  | opened | closed | rejected | acceptedMaster | acceptedSlave | cleared | toIdle | read => exact .of_update s _ _ _

/-- A step that takes a command keeps the envelope of the machine as the command samples it, whether the opcode is reserved or
not. -/
theorem step_keepsEnvelope {s t : State} {c : PortEntry} {rest : List PortEntry} (hp : s.port = c :: rest)
    (h : step s = .next t) : KeepsEnvelope (sample c rest s) t := by
  cases hd : decode c.cmd c.arg with
  | ok i =>
    rw [step_of_decode_ok hp hd] at h
    exact (exec_inv h).keepsEnvelope
  | error e =>
    rw [step_of_decode_error hp hd] at h
    cases h
    exact .of_ignoreReserved _

/-! The statements. -/

/-- Settles O10: the sampling takes the command off the port and sets its time, and the command itself keeps the envelope. -/
theorem stepTakesOneCommand : Obligations.StepTakesOneCommand := by
  intro s t c rest hp h
  obtain ⟨hport, hnow, hcfg, hrefused⟩ := step_keepsEnvelope hp h
  exact ⟨hport.trans (sample_port c rest s), hnow, hcfg.trans (sample_cfg c rest s),
    fun hr => hrefused ((sample_refused c rest s).trans hr)⟩

/-- Settles O6: the machine the statement writes out is the sampled one. -/
theorem stepRunsDecodedCommand : Obligations.StepRunsDecodedCommand :=
  fun _ _ _ _ hp hd => step_of_decode_ok hp hd

/-- Settles O8, by the equation of a step with an empty port. -/
theorem waitsForACommand : Obligations.WaitsForACommand :=
  fun _ hp => step_of_port_nil hp

/-- Settles O9: the placed command is in front of the port, and sampling it gives back the machine it was placed in. -/
theorem placedCommandRunsNext : Obligations.PlacedCommandRunsNext := by
  intro s nbits w i h
  calc step (s.withFetchWord nbits w)
      = exec i (sample ⟨[], _, _, s.now⟩ s.port (s.withFetchWord nbits w)) :=
        step_of_decode_ok rfl (decode_of_decodeTableWord h)
    _ = exec i s := congrArg (exec i) (sample_offerNext (wordsOfTable nbits w) s)

end Sys2Proof.Machine

/-! PROOFS of the family 10_state. The state of the block: the invariants at reset and along every step (R22 to R37, R205), and
which command writes which element (R24 to R32). -/

namespace Sys2Proof.Machine

/-! The control invariant holds in two kinds of block: one at rest, and one whose transaction is in flight. -/

/-- Outside a transaction the invariant asks nothing of the state register but a legal value, nothing of the error register but a
reachable one, and nothing of the baud rate. -/
theorem Block.Inv.atRest {b : Block} (h : b.Inv) {state error : Byte} {baud : BitVec 32}
    (hs : state ∈ [stOff, stIdle, stDone]) (he : { b with error := error }.errorReachable) :
    { b with state := state, error := error, baud := baud }.Inv := by
  obtain ⟨-, hcodes, -, -, hlens⟩ := h
  have hstate : state ∈ [stOff, stIdle, stBreak, stBody, stDone] ∧ ¬(state = stBreak ∨ state = stBody) := by
    simp only [List.mem_cons, List.not_mem_nil, or_false] at hs
    rcases hs with rfl | rfl | rfl <;> decide
  exact ⟨hstate.1, hcodes, he, fun ht => absurd ht hstate.2, hlens⟩

/-- What makes up the invariant of a block whose transaction is in flight. -/
theorem Block.Inv.inFlight {b : Block} (ht : b.inTransaction) (hcodes : b.legalCodes) (he : b.error = 0x00) (hf : b.framed) :
    b.Inv := by
  refine ⟨?_, hcodes, ?_, fun _ => ⟨he, hf⟩, .inl hf⟩
  · rcases ht with h | h <;> rw [Block.legalState, h] <;> decide
  · rw [Block.errorReachable, he]; decide

theorem Block.reset_inv : Block.reset.Inv := by decide

/-! Error entry (R202, R205, R206). -/

/-- STATE, the bit of a rejected request, leads from a reachable error value to a reachable one (R139, R205). -/
theorem Block.errorReachable.or_errState {b : Block} (h : b.errorReachable) :
    { b with error := b.error ||| errState }.errorReachable := by
  have hall : ∀ e ∈ ([0x00, 0x01, 0x02, 0x03, 0x04, 0x05, 0x08, 0x09] : List Byte),
      e ||| errState ∈ ([0x00, 0x01, 0x02, 0x03, 0x04, 0x05, 0x08, 0x09] : List Byte) := by decide
  exact hall _ h

theorem State.Inv.rejectRequest {s : State} (h : s.Inv) : (rejectRequest s).Inv := by
  obtain ⟨-, -, herr, -⟩ := id h
  exact h.atRest (by decide) herr.or_errState

/-- The errors of a transaction are entered from a clear register, so the bit stands alone (R205). -/
theorem State.Inv.enterError {s : State} (h : s.Inv) (ht : s.blk.inTransaction) {e : Byte}
    (he : e ∈ [errEcho, errTimeout, errChecksum]) : (enterError e s).Inv := by
  obtain ⟨-, -, -, hflight, -⟩ := id h
  obtain ⟨hclear, -⟩ := hflight ht
  have hreach : { s.blk with error := s.blk.error ||| e }.errorReachable := by
    change s.blk.error ||| e ∈ _
    rw [hclear]
    revert e; decide
  exact h.atRest (by decide) hreach

/-! STEP. -/

/-- The reception leaves a transaction in BODY, within the lengths of its frame (R33, R154). -/
theorem State.Inv.receive {s : State} (h : s.Inv) (hs : s.blk.state = stBody) : (receive s).Inv := by
  obtain ⟨-, hcodes, -, hflight, -⟩ := h
  obtain ⟨he, hf⟩ := hflight (.inr hs)
  exact .inFlight (.inr hs) hcodes he (framed_receive hf)

theorem Advance.keepsInv {s u : State} (hu : Advance s u) (h : s.Inv) : u.Inv := by
  obtain ⟨hlegal, hcodes, herr, hflight, hlens⟩ := id h
  cases hu with
  | quiet | breakWaits => exact h
  | toBody hs =>
    obtain ⟨he, hf⟩ := hflight (.inl hs)
    exact .inFlight (.inr rfl) hcodes he hf
  | breakLate hs => exact h.enterError (.inl hs) (by decide)
  | bodyOk hs =>
    obtain ⟨-, -, herr', -⟩ := h.receive hs
    exact (h.receive hs).atRest (by decide) herr'
  | bodyEcho hs => exact (h.receive hs).enterError (.inr hs) (by decide)
  | bodyChecksum hs => exact (h.receive hs).enterError (.inr hs) (by decide)
  | bodyLate hs => exact (h.receive hs).enterError (.inr hs) (by decide)
  | bodyWaits hs => exact h.receive hs
  | illegal hs => exact absurd hlegal hs

/-! An accepted request. -/

/-- An accepted request whose lengths are those of R110 or R111 starts a transaction of R33, whatever stood in the block. -/
theorem startTransaction_inv {kind : FrameType} {n : BitVec 4} (v : Version) (id : BitVec 6) (data : List Byte) (s : State)
    (hn : n.toNat ≤ 8) (hrx : (acceptedBlock kind v id n data s).rxLen.toNat = 4 + n.toNat)
    (htx : (acceptedBlock kind v id n data s).txLen.toNat = if frameTypeCode kind = typeMaster then 4 + n.toNat else 3) :
    (startTransaction kind v id n data s).Inv := by
  refine .inFlight (.inl rfl) ⟨?_, ?_⟩ ?_ ⟨?_, ?_, ?_, ?_⟩ <;>
    simp only [startTransaction_blk, acceptedBlock_version, acceptedBlock_frameType, acceptedBlock_error, acceptedBlock_numData,
      acceptedBlock_rxCount]
  · exact versionCode_mem v
  · exact frameTypeCode_mem kind
  · exact hn
  · exact hrx
  · exact htx
  · exact Nat.zero_le _

/-! The commands, and the step of the machine. -/

theorem Effect.keepsInv {i : Instr} {s t : State} (ht : Effect i s t) (h : s.Inv) : t.Inv := by
  obtain ⟨-, -, herr, -, -⟩ := id h
  cases ht with
  | ignored | read => exact h
  | opened | closed | toIdle => exact h.atRest (by decide) herr
  | rejected => exact h.rejectRequest
  | acceptedMaster v id n arg _ hn =>
    obtain ⟨htx, hrx⟩ := acceptedBlock_lens_master v id n (operandData n arg) s (operandData_length n arg) hn
    exact startTransaction_inv v id _ s hn hrx htx
  | acceptedSlave v id n _ hn =>
    obtain ⟨htx, hrx⟩ := acceptedBlock_lens_slave v id n [] s hn
    exact startTransaction_inv v id _ s hn hrx htx
  | stepped _ _ hu => exact hu.keepsInv h
  | cleared =>
    obtain ⟨hlegal, hcodes, -, hflight, hlens⟩ := h
    exact ⟨hlegal, hcodes, .head _, fun hin => ⟨rfl, (hflight hin).2⟩, hlens⟩

/-- A reset of the block gives the invariant anew; the transport's steps do not touch the block (R130, R230). -/
theorem envStep_keepsInv (s : State) (e : EnvEvent) (h : s.Inv) : (envStep s e).Inv := by
  cases e with
  | transport te => exact h
  | coreReset => exact Block.reset_inv

/-! Which elements a command writes. -/

/-- STEP writes at most the state, the error, the rx buffer and its count, and the last two in BODY only (R150 to R157). -/
theorem Advance.blk_writes {s u : State} (hu : Advance s u) : ∃ state error rxBuf rxCount,
    u.blk = { s.blk with state := state, error := error, rxBuf := rxBuf, rxCount := rxCount } ∧
    (s.blk.state ≠ stBody → rxBuf = s.blk.rxBuf ∧ rxCount = s.blk.rxCount) := by
  cases hu with
  | quiet | toBody | breakLate | breakWaits | illegal => exact ⟨_, _, _, _, rfl, fun _ => ⟨rfl, rfl⟩⟩
  | bodyOk h | bodyEcho h | bodyChecksum h | bodyLate h | bodyWaits h =>
    exact ⟨_, _, _, _, rfl, fun hs => absurd h hs⟩

/-- Only OPEN writes the baud rate (R24). -/
theorem Effect.baud_eq {i : Instr} {s t : State} (ht : Effect i s t) (hi : ∀ baud, i ≠ .openTp baud) :
    t.blk.baud = s.blk.baud := by
  cases ht with
  | opened baud h => exact absurd h (hi baud)
  | acceptedMaster | acceptedSlave => exact acceptedBlock_baud ..
  | stepped _ _ hu =>
    obtain ⟨_, _, _, _, hblk, -⟩ := hu.blk_writes
    exact (congrArg Block.baud hblk :)
  | ignored | closed | rejected | cleared | toIdle | read => rfl

/-- A command that is no accepted request writes at most the state, the error, the baud rate, the rx buffer and its count, and the
last two as a STEP in BODY only (R25 to R32). -/
theorem Effect.blk_writes {i : Instr} {s t : State} (ht : Effect i s t) (ha : ¬ accepts i s) :
    ∃ state error baud rxBuf rxCount,
      t.blk = { s.blk with state := state, error := error, baud := baud, rxBuf := rxBuf, rxCount := rxCount } ∧
      (¬(i = .step ∧ s.blk.state = stBody) → rxBuf = s.blk.rxBuf ∧ rxCount = s.blk.rxCount) := by
  cases ht with
  | acceptedMaster v id n arg hi hn hs =>
    exact absurd ⟨hi ▸ rfl, hi ▸ (lengthOk_iff n).mpr hn, hs⟩ ha
  | acceptedSlave v id n hi hn hs =>
    exact absurd ⟨hi ▸ rfl, hi ▸ (lengthOk_iff n).mpr hn, hs⟩ ha
  | stepped hi _ hu =>
    obtain ⟨_, _, _, _, hblk, hrx⟩ := hu.blk_writes
    exact ⟨_, _, _, _, _, hblk, fun hb => hrx fun hs => hb ⟨hi, hs⟩⟩
  | ignored | opened | closed | rejected | cleared | toIdle | read => exact ⟨_, _, _, _, _, rfl, fun _ => ⟨rfl, rfl⟩⟩

/-! The statements. -/

/-- Settles O51: the environment, the sampling, every command and an ignored opcode each keep the invariant. -/
theorem invariantKept : Obligations.InvariantKept :=
  fun _ _ hs h => step_keeps (P := State.Inv) envStep_keepsInv (fun _ _ _ h => h) (fun _ _ _ h ht => ht.keepsInv h)
    (fun _ h => h) hs h

/-- Settles O48: the baud rate by `Effect.baud_eq`, the other elements by `Effect.blk_writes`. -/
theorem writersOfEachElement : Obligations.WritersOfEachElement := by
  intro i s t h
  have ht := exec_inv h
  refine ⟨ht.baud_eq, fun ha => ?_, fun ha hb => ?_⟩ <;> obtain ⟨_, _, _, _, _, hblk, hrx⟩ := ht.blk_writes ha <;> rw [hblk]
  · exact ⟨rfl, rfl, rfl, rfl, rfl, rfl, rfl, rfl, rfl⟩
  · exact hrx hb

/-- Settles O50: at reset the lengths are 0, so no frame is claimed, the rx buffer is all zero, and OFF is outside a transaction. -/
theorem invariantsAtReset : Obligations.InvariantsAtReset := by
  have hframe : ¬ Block.reset.framed := by decide
  exact ⟨Block.reset_inv, ⟨fun hf => absurd hf hframe, fun i _ => Buf.at_zero i⟩,
    fun hs => absurd hs (by decide), fun hs => absurd hs (by decide)⟩

end Sys2Proof.Machine

/-! PROOFS of the family 20_memory. The transport's actions: which command takes one (R58, R139, R151, R152, R159, R160), and the
order in which a transaction takes them (R57, R60). -/

namespace Sys2Proof.Machine

/-! The order of a transaction's actions, by the state it asks something of: none outside a transaction, BREAK, and BODY. -/

/-- Outside a transaction the order asks nothing. -/
theorem State.ordered.of_rest {s : State} (h : s.blk.state = stOff ∨ s.blk.state = stIdle ∨ s.blk.state = stDone) :
    s.ordered := by
  have hs : s.blk.state ≠ stBreak ∧ s.blk.state ≠ stBody := by
    rcases h with h | h | h <;> rw [h] <;> decide
  exact ⟨fun hb => absurd hb hs.1, fun hb => absurd hb hs.2⟩

theorem State.ordered.of_break {s : State} (h : s.blk.state = stBreak) (ha : [.tpDrain, .tpBreak] <:+ s.tp.actions) :
    s.ordered :=
  ⟨fun _ => ha, fun hs => absurd (h.symm.trans hs) (by decide)⟩

theorem State.ordered.of_body {s : State} (h : s.blk.state = stBody) (ks : List Nat)
    (ha : [.tpDrain, .tpBreak, .tpWrite (s.blk.txBuf.slice 1 (s.blk.txLen.toNat - 1))] ++ ks.map .tpRead <:+ s.tp.actions) :
    s.ordered :=
  ⟨fun hs => absurd (h.symm.trans hs) (by decide), fun _ => ⟨ks, ha⟩⟩

/-! What the environment and each command make of the order. -/

/-- The order speaks of the block and the record alone, and no step of the transport writes either (R130, log 4). -/
theorem envStep_keepsOrdered (s : State) (e : EnvEvent) (h : s.ordered) : (envStep s e).ordered := by
  cases e with
  | transport te =>
    change State.ordered { s with tp := s.tp.react te }
    unfold State.ordered
    rw [react_actions]
    exact h
  | coreReset => exact .of_rest (.inl rfl)

/-- An accepted request drains, then starts the break (R140). -/
theorem startTransaction_ordered (kind : FrameType) (v : Version) (id : BitVec 6) (n : BitVec 4) (data : List Byte) (s : State) :
    (startTransaction kind v id n data s).ordered := by
  refine .of_break rfl ⟨s.tp.actions, ?_⟩
  simp

/-- The frame is written right after the break (R153). -/
theorem State.ordered.writeFrame {s : State} (h : s.ordered) (hs : s.blk.state = stBreak) :
    (setState stBody { s with tp := s.tp.write (s.blk.txBuf.slice 1 (s.blk.txLen.toNat - 1)) }).ordered := by
  obtain ⟨earlier, hrec⟩ := h.1 hs
  refine .of_body rfl [] ⟨earlier, ?_⟩
  simp [← hrec]

/-- A reception adds one read to those of the transaction (R154). -/
theorem State.ordered.receive {s : State} (h : s.ordered) (hs : s.blk.state = stBody) : (receive s).ordered := by
  obtain ⟨ks, earlier, hrec⟩ := h.2 hs
  refine .of_body hs (ks ++ [readCount s]) ⟨earlier, ?_⟩
  simp [← hrec]

theorem Advance.keepsOrdered {s u : State} (hu : Advance s u) (h : s.ordered) : u.ordered := by
  cases hu with
  | quiet | breakWaits => exact h
  | toBody hs => exact h.writeFrame hs
  | bodyWaits hs => exact h.receive hs
  | breakLate | bodyOk | bodyEcho | bodyChecksum | bodyLate | illegal => exact .of_rest (.inr (.inr rfl))

theorem Effect.keepsOrdered {i : Instr} {s t : State} (ht : Effect i s t) (h : s.ordered) : t.ordered := by
  cases ht with
  | ignored | cleared | read => exact h
  | opened | toIdle => exact .of_rest (.inr (.inl rfl))
  | closed => exact .of_rest (.inl rfl)
  | rejected => exact .of_rest (.inr (.inr rfl))
  | acceptedMaster | acceptedSlave => exact startTransaction_ordered ..
  | stepped _ _ hu => exact hu.keepsOrdered h

/-! What a command makes of the record, and when it leaves the transport as it is. -/

theorem Advance.actions_prefix {s u : State} (hu : Advance s u) : s.tp.actions <+: u.tp.actions := by
  cases hu with
  | quiet | breakLate | breakWaits | illegal => exact List.prefix_rfl
  | toBody | bodyOk | bodyEcho | bodyChecksum | bodyLate | bodyWaits => exact List.prefix_append ..

theorem Effect.actions_prefix {i : Instr} {s t : State} (ht : Effect i s t) : s.tp.actions <+: t.tp.actions := by
  cases ht with
  | ignored | rejected | cleared | toIdle | read => exact List.prefix_rfl
  | opened | closed => exact List.prefix_append ..
  | acceptedMaster | acceptedSlave => exact (List.prefix_append ..).trans (List.prefix_append ..)
  | stepped _ _ hu => exact hu.actions_prefix

/-- STEP touches the transport to write the frame once the break is done, and to read in BODY (R153, R154). -/
theorem Advance.of_tp_ne {s u : State} (hu : Advance s u) (hne : u.tp ≠ s.tp) :
    (s.blk.state = stBreak ∧ s.tp.breakDone = true) ∨ s.blk.state = stBody := by
  cases hu with
  | quiet | breakLate | breakWaits | illegal => exact absurd rfl hne
  | toBody hs hb => exact .inl ⟨hs, hb⟩
  | bodyOk hs | bodyEcho hs | bodyChecksum hs | bodyLate hs | bodyWaits hs => exact .inr hs

/-- The commands that touch the transport: OPEN, CLOSE, an accepted request, and the two kinds of STEP. -/
theorem Effect.of_tp_ne {i : Instr} {s t : State} (ht : Effect i s t) (hne : t.tp ≠ s.tp) :
    i.wf = true ∧ ((∃ baud, i = .openTp baud) ∨ i = .closeTp ∨ accepts i s ∨
      (i = .step ∧ s.blk.state = stBreak ∧ s.tp.breakDone = true) ∨ (i = .step ∧ s.blk.state = stBody)) := by
  cases ht with
  | ignored | rejected | cleared | toIdle | read => exact absurd rfl hne
  | opened baud hi hb =>
    subst hi
    exact ⟨(baudOk_iff baud).mpr hb, .inl ⟨baud, rfl⟩⟩
  | closed hi =>
    subst hi
    exact ⟨rfl, .inr (.inl rfl)⟩
  | acceptedMaster _ _ n _ hi hn hs | acceptedSlave _ _ n hi hn hs =>
    subst hi
    have hw := (lengthOk_iff n).mpr hn
    exact ⟨hw, .inr (.inr (.inl ⟨rfl, hw, hs⟩))⟩
  | stepped hi u hu =>
    subst hi
    refine ⟨rfl, .inr (.inr (.inr ?_))⟩
    obtain ⟨hs, hb⟩ | hs := hu.of_tp_ne hne
    · exact .inl ⟨rfl, hs, hb⟩
    · exact .inr ⟨rfl, hs⟩

/-! The statements. -/

/-- Settles O53: the environment, the sampling, every command and an ignored opcode each keep the order. -/
theorem transactionOrderKept : Obligations.TransactionOrderKept :=
  fun _ _ hs h => step_keeps (P := State.ordered) envStep_keepsOrdered (fun _ _ _ h => h) (fun _ _ _ h ht => ht.keepsOrdered h)
    (fun _ h => h) hs h

/-- Settles O49: the record by `Effect.actions_prefix`, the commands by `Effect.of_tp_ne`. -/
theorem transportActionsOfEachCommand : Obligations.TransportActionsOfEachCommand := by
  intro i s t h
  have ht := exec_inv h
  exact ⟨ht.actions_prefix, ht.of_tp_ne⟩

end Sys2Proof.Machine

/-! PROOFS of the family 30_encoding. The decoder and the encoder are inverse to each other on the bits a command uses (R70 to R77,
R81, R82), the response of each command (R75), and the reserved encodings (R78, R79). -/

namespace Sys2Proof

/-! The decoder, said once: the opcode tells the command, its operands are the fields. -/

/-- The command of the same kind whose operands stand in the fields of the words `cmd` and `arg` (R71, R73). -/
def Instr.withFields (cmd : BitVec 16) (arg : BitVec 64) : Instr → Instr
  | .openTp _ => .openTp (baudField arg)
  | .closeTp => .closeTp
  | .mreq _ _ _ _ => .mreq (versionField cmd) (idField cmd) (lenField cmd) arg
  | .sresp _ _ _ => .sresp (versionField cmd) (idField cmd) (lenField cmd)
  | .step => .step
  | .getst => .getst
  | .geterr => .geterr
  | .clrerr => .clrerr
  | .rstsm => .rstsm
  | .getfrm => .getfrm
  | .pid _ => .pid (idField cmd)
  | .chk _ _ _ _ => .chk (versionField cmd) (idField cmd) (lenField cmd) arg

@[simp] theorem withFields_opcode (cmd : BitVec 16) (arg : BitVec 64) (i : Instr) : (i.withFields cmd arg).opcode = i.opcode := by
  cases i <;> rfl

/-- The opcodes of R78, which name no command. -/
abbrev reservedOpcodes : List (BitVec 4) := [0x0#4, 0xD#4, 0xE#4, 0xF#4]

/-- One command of each row of the opcode table (R73). -/
def oneOfEach : List Instr :=
  [.openTp 0, .closeTp, .mreq .v1 0 0 0, .sresp .v1 0 0, .step, .getst, .geterr, .clrerr, .rstsm, .getfrm, .pid 0, .chk .v1 0 0 0]

/-- Every opcode is reserved or that of a command (R73, R78). -/
theorem reserved_or_opcode (op : BitVec 4) : op ∈ reservedOpcodes ∨ ∃ i : Instr, i.opcode = op := by
  have hall : ∀ op : BitVec 4, op ∈ reservedOpcodes ∨ ∃ i ∈ oneOfEach, i.opcode = op := by decide
  exact (hall op).imp_right fun ⟨i, _, hi⟩ => ⟨i, hi⟩

/-- The opcode alone tells the commands apart (R70). -/
theorem decode_of_opcode {cmd : BitVec 16} {i : Instr} (h : opField cmd = i.opcode) (arg : BitVec 64) :
    decode cmd arg = .ok (i.withFields cmd arg) := by
  unfold decode
  rw [h]
  cases i <;> rfl

theorem decode_of_reserved {cmd : BitVec 16} (h : opField cmd ∈ reservedOpcodes) (arg : BitVec 64) :
    decode cmd arg = .error (.reservedOpcode (opField cmd)) := by
  unfold decode
  simp only [List.mem_cons, List.not_mem_nil, or_false] at h
  rcases h with h | h | h | h <;> rw [h] <;> rfl

/-- What a command word that decodes to `i` holds: the opcode of `i`, and its operands in their fields. -/
theorem fields_of_decode {cmd : BitVec 16} {arg : BitVec 64} {i : Instr} (h : decode cmd arg = .ok i) :
    opField cmd = i.opcode ∧ i = i.withFields cmd arg := by
  obtain hres | ⟨j, hj⟩ := reserved_or_opcode (opField cmd)
  · rw [decode_of_reserved hres] at h
    cases h
  · rw [decode_of_opcode hj.symm] at h
    cases h
    exact ⟨hj.symm.trans (withFields_opcode cmd arg j).symm, by cases j <;> rfl⟩

/-! The round trip from a term (R81). -/

theorem opField_encode (i : Instr) : opField (encode i).cmd = i.opcode := by
  cases i <;> exact opField_packCmd _ _ _ _

theorem baudField_setWidth (baud : BitVec 32) : baudField (baud.setWidth 64) = baud := by
  apply BitVec.eq_of_toNat_eq
  simp only [baudField, BitVec.extractLsb'_toNat, BitVec.toNat_setWidth, Nat.shiftRight_zero]
  omega

/-- The fields of an encoded command hold its operands. -/
theorem withFields_encode (i : Instr) : i.withFields (encode i).cmd (encode i).arg = i := by
  cases i with
  | openTp baud => exact congrArg Instr.openTp (baudField_setWidth baud)
  | pid id => exact congrArg Instr.pid (idField_packCmd _ _ _ _)
  | mreq | sresp | chk =>
    simp only [encode, Instr.withFields, versionField_packCmd, idField_packCmd, lenField_packCmd]
  | closeTp | step | getst | geterr | clrerr | rstsm | getfrm => rfl

theorem decode_encode (i : Instr) : decode (encode i).cmd (encode i).arg = .ok i := by
  rw [decode_of_opcode (opField_encode i), withFields_encode]

theorem decode_of_encode_eq {i : Instr} {cmd : BitVec 16} {arg : BitVec 64} (h : encode i = ⟨cmd, arg⟩) :
    decode cmd arg = .ok i := by
  have hd := decode_encode i
  rwa [h] at hd

/-! The round trip from the words: packing the fields of a command word gives the command word under a mask (R71, R72). -/

/-- Packing goes field by field, and so does a mask. -/
theorem packCmd_and (op op' : BitVec 4) (v v' : BitVec 1) (id id' : BitVec 6) (n n' : BitVec 4) :
    packCmd op v id n &&& packCmd op' v' id' n' = packCmd (op &&& op') (v &&& v') (id &&& id') (n &&& n') := by
  apply BitVec.eq_of_getLsbD_eq
  intro k _
  simp only [BitVec.getLsbD_and, packCmd_getLsbD]
  split_ifs <;> simp

theorem versionBit_versionField (cmd : BitVec 16) : versionBit (versionField cmd) = cmd.extractLsb' 4 1 := by
  apply BitVec.eq_of_getLsbD_eq
  intro k hk
  obtain rfl : k = 0 := by omega
  unfold versionField
  cases h : cmd.getLsbD 4 <;> simp [versionBit, h, -BitVec.getLsbD_eq_getElem]

/-- The fields of a command word hold all its bits but `rsv` (R71). -/
theorem packCmd_fields (cmd : BitVec 16) :
    packCmd (opField cmd) (versionBit (versionField cmd)) (idField cmd) (lenField cmd) = cmd &&& 0x7FFF := by
  have hmask : ∀ k, k < 16 → (0x7FFF : BitVec 16).getLsbD k = decide (k < 15) := by decide
  apply BitVec.eq_of_getLsbD_eq
  intro k hk
  rw [packCmd_getLsbD, BitVec.getLsbD_and, hmask k hk, versionBit_versionField]
  simp only [opField, idField, lenField, BitVec.getLsbD_extractLsb']
  split_ifs with h4 h5 h11 h15
  · simp [h4, show k < 15 by omega]
  · obtain rfl : k = 4 := by omega
    simp
  · simp [show k - 5 < 6 by omega, show k < 15 by omega, show 5 + (k - 5) = k by omega]
  · simp [h15, show k - 11 < 4 by omega, show 11 + (k - 11) = k by omega]
  · simp [h15]

/-- A mask made of whole fields keeps those fields. -/
theorem and_packCmd (cmd : BitVec 16) (op : BitVec 4) (v : BitVec 1) (id : BitVec 6) (n : BitVec 4) :
    cmd &&& packCmd op v id n =
      packCmd (opField cmd &&& op) (versionBit (versionField cmd) &&& v) (idField cmd &&& id) (lenField cmd &&& n) := by
  have hrsv : 0x7FFF &&& packCmd op v id n = packCmd op v id n := by
    rw [show (0x7FFF : BitVec 16) = packCmd (.allOnes 4) (.allOnes 1) (.allOnes 6) (.allOnes 4) by rfl, packCmd_and]
    simp only [BitVec.allOnes_and]
  rw [← packCmd_and, packCmd_fields, BitVec.and_assoc, hrsv]

/-- The mask of the commands whose only field is the opcode. -/
theorem packCmd_op (cmd : BitVec 16) : packCmd (opField cmd) 0#1 0#6 0#4 = cmd &&& 0x000F := by
  rw [show (0x000F : BitVec 16) = packCmd (.allOnes 4) 0#1 0#6 0#4 by rfl, and_packCmd]
  simp only [BitVec.and_allOnes, BitVec.and_zero]

/-- The mask of PID, which uses the opcode and the identifier. -/
theorem packCmd_op_id (cmd : BitVec 16) : packCmd (opField cmd) 0#1 (idField cmd) 0#4 = cmd &&& 0x07EF := by
  rw [show (0x07EF : BitVec 16) = packCmd (.allOnes 4) 0#1 (.allOnes 6) 0#4 by rfl, and_packCmd]
  simp only [BitVec.and_allOnes, BitVec.and_zero]

theorem setWidth_baudField (arg : BitVec 64) : (baudField arg).setWidth 64 = arg &&& 0x00000000FFFFFFFF := by
  apply BitVec.eq_of_toNat_eq
  rw [BitVec.toNat_and, show (0x00000000FFFFFFFF : BitVec 64).toNat = 2 ^ 32 - 1 by rfl, Nat.and_two_pow_sub_one_eq_mod]
  simp only [baudField, BitVec.extractLsb'_toNat, BitVec.toNat_setWidth, Nat.shiftRight_zero]
  omega

/-- Encoding the command whose operands were read from the words gives the words, but for the bits it does not use. -/
theorem encode_withFields {cmd : BitVec 16} {i : Instr} (h : opField cmd = i.opcode) (arg : BitVec 64) :
    encode (i.withFields cmd arg) = ⟨cmd &&& i.usedCmdBits, arg &&& i.usedArgBits⟩ := by
  have hop := packCmd_op cmd
  have hid := packCmd_op_id cmd
  have hall := packCmd_fields cmd
  rw [h] at hop hid hall
  have hnoArg : 0 = arg &&& 0 := BitVec.and_zero.symm
  have hwholeArg : arg = arg &&& BitVec.allOnes 64 := BitVec.and_allOnes.symm
  cases i with
  | openTp => exact congrArg₂ CommandWord.mk hop (setWidth_baudField arg)
  | pid => exact congrArg₂ CommandWord.mk hid hnoArg
  | mreq | chk => exact congrArg₂ CommandWord.mk hall hwholeArg
  | sresp => exact congrArg₂ CommandWord.mk hall hnoArg
  | closeTp | step | getst | geterr | clrerr | rstsm | getfrm => exact congrArg₂ CommandWord.mk hop hnoArg

theorem encode_of_decode {cmd : BitVec 16} {arg : BitVec 64} {i : Instr} (h : decode cmd arg = .ok i) :
    encode i = ⟨cmd &&& i.usedCmdBits, arg &&& i.usedArgBits⟩ := by
  obtain ⟨hop, hi⟩ := fields_of_decode h
  have he := encode_withFields hop arg
  rwa [← hi] at he

/-! Fields a command does not use (R72). -/

/-- Every command uses the whole opcode. -/
theorem opField_and_usedCmdBits (cmd : BitVec 16) (i : Instr) : opField (cmd &&& i.usedCmdBits) = opField cmd := by
  have hused : opField i.usedCmdBits = .allOnes 4 := by cases i <;> simp only [Instr.usedCmdBits] <;> decide
  calc opField (cmd &&& i.usedCmdBits)
      = opField cmd &&& opField i.usedCmdBits := BitVec.extractLsb'_and
    _ = opField cmd := by rw [hused, BitVec.and_allOnes]

/-- Words that agree on the used bits of a command have the command's encoding under the mask, so both decode to it. -/
theorem decode_congr {cmd cmd' : BitVec 16} {arg arg' : BitVec 64} {i : Instr} (h : decode cmd arg = .ok i)
    (hcmd : cmd' &&& i.usedCmdBits = cmd &&& i.usedCmdBits) (harg : arg' &&& i.usedArgBits = arg &&& i.usedArgBits) :
    decode cmd' arg' = .ok i := by
  obtain ⟨hop, -⟩ := fields_of_decode h
  have hop' : opField cmd' = i.opcode := by
    rw [← opField_and_usedCmdBits cmd' i, hcmd, opField_and_usedCmdBits, hop]
  have hsame : encode (i.withFields cmd' arg') = encode i := by
    rw [encode_withFields hop', hcmd, harg, encode_of_decode h]
  calc decode cmd' arg'
      = .ok (i.withFields cmd' arg') := decode_of_opcode hop' arg'
    _ = decode (encode i).cmd (encode i).arg := by rw [← hsame, decode_encode]
    _ = .ok i := decode_encode i

/-! The statements about the decoder and the encoder alone. -/

/-- Settles O1: the opcode of the encoded command selects its decoding, and its fields hold the operands. -/
theorem decodeOfEncode : Obligations.DecodeOfEncode := decode_encode

/-- Settles O2: the operands of `i` were read from the fields, and packing the fields gives the words under the masks. -/
theorem encodeOfDecodeKeepsUsedBits : Obligations.EncodeOfDecodeKeepsUsedBits := fun _ _ _ => encode_of_decode

/-- Settles O4: every opcode is reserved or that of a command. -/
theorem reservedOpcodesRejected : Obligations.ReservedOpcodesRejected := by
  refine fun cmd arg => ⟨fun hres => decode_of_reserved hres arg, fun hres => ?_⟩
  obtain ⟨i, hi⟩ := (reserved_or_opcode (opField cmd)).resolve_left hres
  exact ⟨_, decode_of_opcode hi.symm arg, (withFields_opcode cmd arg i).trans hi⟩

/-- Settles O5: the encodings are computed, and the words are read back by the round trip. -/
theorem workedEncodings : Obligations.WorkedEncodings := by
  have hmreq : encode (.mreq .v2 0x10 2 0x0201) = ⟨0x1213, 0x0201⟩ := by rfl
  have hsresp : encode (.sresp .v1 0x20 2) = ⟨0x1404, 0⟩ := by rfl
  have hpid : encode (.pid 0x3D) = ⟨0x07AB, 0⟩ := by rfl
  have hchk : encode (.chk .v2 0x3C 2 0x0201) = ⟨0x179C, 0x0201⟩ := by rfl
  have hmreq8 (bytes : BitVec 64) : encode (.mreq .v2 0x3F 8 bytes) = ⟨0x47F3, bytes⟩ := by rfl
  have hsresp8 : encode (.sresp .v2 0x3F 8) = ⟨0x47F4, 0⟩ := by rfl
  have hstep : encode .step = ⟨0x0005, 0⟩ := by rfl
  have hopen : encode (.openTp 19200) = ⟨0x0001, 0x4B00⟩ := by rfl
  exact ⟨hmreq, decode_of_encode_eq hmreq, hsresp, decode_of_encode_eq hsresp, hpid, decode_of_encode_eq hpid,
    hchk, decode_of_encode_eq hchk, fun bytes => ⟨hmreq8 bytes, decode_of_encode_eq (hmreq8 bytes)⟩,
    hsresp8, decode_of_encode_eq hsresp8, hstep, decode_of_encode_eq hstep, hopen, decode_of_encode_eq hopen⟩

end Sys2Proof

namespace Sys2Proof.Machine

/-- The data of MREQ and CHK are the operand bytes below `n` (R76). -/
theorem operandData_congr {n : BitVec 4} {a a' : BitVec 64}
    (h : ∀ k, k < n.toNat → a.extractLsb' (8 * k) 8 = a'.extractLsb' (8 * k) 8) : operandData n a = operandData n a' :=
  List.map_congr_left fun k hk => h k (List.mem_range.mp hk)

/-- A request that answers a next state, rejected or accepted, responds with the state it leaves (R75, R139, R140). -/
theorem request_response {kind : FrameType} {v : Version} {id : BitVec 6} {n : BitVec 4} {data : List Byte} {s t : State}
    (h : request kind v id n data s = .next t) : t.response = [t.blk.state] := by
  obtain ⟨-, e⟩ | ⟨-, -, e⟩ | ⟨-, -, e⟩ := request_cases kind v id n data s <;> rw [e] at h <;> cases h <;> rfl

/-- The data of GETFRM are `numData` bytes, of whichever buffer (R174). -/
theorem frameData_length (b : Block) : (frameData b).length = b.numData.toNat := by
  unfold frameData
  split <;> exact Buf.slice_length ..

theorem frameResponse_length (b : Block) : (frameResponse b).length = 3 + b.numData.toNat := by
  rw [frameResponse, List.length_append, frameData_length]
  rfl

/-! The statements about the machine. -/

/-- Settles O3: the used bits determine the decoding, and MREQ and CHK read the operand through its first `n` bytes only. -/
theorem ignoredFieldsHaveNoEffect : Obligations.IgnoredFieldsHaveNoEffect := by
  refine ⟨fun _ _ _ _ _ => decode_congr, fun v id n a a' s h => ?_⟩
  simp only [exec, execMreq, execChk, operandData_congr h, and_self]

/-- Settles O42, command by command. -/
theorem responseOfEachCommand : Obligations.ResponseOfEachCommand := by
  intro i s t hw h
  cases i with
  | openTp baud =>
    have e : exec (.openTp baud) s = _ := if_pos hw
    rw [e] at h
    cases h
    rfl
  | mreq v id n arg =>
    rw [exec_mreq ((lengthOk_iff n).mp hw)] at h
    exact request_response h
  | sresp v id n =>
    rw [exec_sresp ((lengthOk_iff n).mp hw)] at h
    exact request_response h
  | chk v id n arg =>
    have e : exec (.chk v id n arg) s = _ := if_pos hw
    rw [e] at h
    cases h
    rfl
  | getfrm =>
    cases h
    exact frameResponse_length s.blk
  | closeTp | step | getst | geterr | clrerr | rstsm | pid =>
    cases h
    rfl

/-- Settles O7: the opcode does not decode, and such a command is ignored in the machine it samples. -/
theorem stepIgnoresReservedOpcode : Obligations.StepIgnoresReservedOpcode :=
  fun _ c _ hp hres => step_of_decode_error hp (decode_of_reserved hres c.arg)

/-- Settles O31: the four forms are not well formed. -/
theorem reservedOperandsIgnored : Obligations.ReservedOperandsIgnored := by
  intro v id n arg s
  refine ⟨fun hn => ?_, exec_of_not_wf (i := .openTp 0) rfl s⟩
  have hlen : lengthOk n = false := decide_eq_false (Nat.not_le.mpr hn)
  exact ⟨exec_of_not_wf (i := .mreq v id n arg) hlen s, exec_of_not_wf (i := .sresp v id n) hlen s,
    exec_of_not_wf (i := .chk v id n arg) hlen s⟩

end Sys2Proof.Machine

/-! PROOFS of the family 40_codec. The protected identifier (R100 to R103), the checksum (R104 to R109), the frame builders (R110,
R111), the validator (R112 to R117), the invariant of the buffers (R140, R154, R175), and a whole transaction over a transport that
delivers its frame (R178, R179). -/

namespace Sys2Proof.Machine

/-! The protected identifier (R100, R103). -/

/-- Bit 6 of a protected identifier (R100). -/
theorem pid_parity0 (id : BitVec 6) : (pid id).getLsbD 6 = parity0 id := by
  simp [pid, -BitVec.getLsbD_eq_getElem]

/-- Bit 7 of a protected identifier (R100). -/
theorem pid_parity1 (id : BitVec 6) : (pid id).getLsbD 7 = parity1 id := by
  simp [pid, -BitVec.getLsbD_eq_getElem]

/-- The identifier is in the low six bits (R103). -/
theorem pid_eq_pid_iff (a b : BitVec 6) : pid a = pid b ↔ a = b :=
  ⟨fun h => by rw [← pid_low a, ← pid_low b, h], congrArg pid⟩

/-- The diagnostic test of R105 on the protected identifier: PID(0x3C) is 0x3C, PID(0x3D) is 0x7D (R106). -/
theorem pid_diag_iff (id : BitVec 6) : (pid id = 0x3C ∨ pid id = 0x7D) ↔ (id = 0x3C ∨ id = 0x3D) :=
  or_congr (pid_eq_pid_iff id 0x3C) (pid_eq_pid_iff id 0x3D)

/-- No identifier has the protected identifier 0x3D: by its low six bits it would be 0x3D itself, whose PID is 0x7D (R106). -/
theorem pid_ne_0x3D (id : BitVec 6) : pid id ≠ 0x3D := by
  intro h
  have hid : id = 0x3D := by rw [← pid_low id, h]; rfl
  subst hid
  exact absurd h (by decide)

/-! The checksum (R105 to R108). -/

theorem seed_v1 (id : BitVec 6) : seed .v1 id = 0 := rfl

/-- The seed by the unprotected identifier (R105). -/
theorem seed_eq (v : Version) (id : BitVec 6) :
    seed v id = if v = .v2 ∧ id ≠ 0x3C ∧ id ≠ 0x3D then (pid id).toNat else 0 := by
  simp only [seed, isDiag_eq]

theorem seed_v2 {id : BitVec 6} (hC : id ≠ 0x3C) (hD : id ≠ 0x3D) : seed .v2 id = (pid id).toNat := by
  rw [seed_eq, if_pos ⟨rfl, hC, hD⟩]

/-- A diagnostic frame has the classic checksum (R105). -/
theorem seed_diag (v : Version) {id : BitVec 6} (h : id = 0x3C ∨ id = 0x3D) : seed v id = 0 := by
  rw [seed_eq, if_neg fun ⟨_, hC, hD⟩ => h.elim hC hD]

/-- Two tests that hold of the same frames give one seed, hence one checksum (R106). -/
theorem chksum_of_seed_test (v : Version) (id : BitVec 6) (data : List Byte) {test : Prop} [Decidable test]
    (h : test ↔ (id = 0x3C ∨ id = 0x3D)) :
    BitVec.ofNat 8 (255 - data.foldl addCarry (if v = .v2 ∧ ¬ test then (pid id).toNat else 0)) = chksum v id data := by
  simp only [chksum, seed_eq, h, not_or, ne_eq]

/-- A checksum whose seed is 0 is that of the data alone (R108). -/
theorem chksum_of_seed_zero {v : Version} {id : BitVec 6} (h : seed v id = 0) (data : List Byte) :
    chksum v id data = BitVec.ofNat 8 (255 - data.foldl addCarry 0) := by
  rw [chksum, h]

/-- The checksum of no data is the complement of the seed (R109). -/
theorem chksum_nil_v2 {id : BitVec 6} (hC : id ≠ 0x3C) (hD : id ≠ 0x3D) : chksum .v2 id [] = ~~~pid id := by
  apply BitVec.eq_of_toNat_eq
  rw [chksum_toNat, List.foldl_nil, seed_v2 hC hD, BitVec.toNat_not]

theorem exec_chk {n : BitVec 4} (h : n.toNat ≤ 8) (v : Version) (id : BitVec 6) (arg : BitVec 64) (s : State) :
    exec (.chk v id n arg) s = .next (respond [chksum v id (operandData n arg)] s) :=
  if_pos ((lengthOk_iff n).mpr h)

/-- CHK of an operand whose data and checksum are known. -/
theorem exec_chk_eq {n : BitVec 4} (h : n.toNat ≤ 8) {v : Version} {id : BitVec 6} {arg : BitVec 64} {c : Byte}
    (hc : chksum v id (operandData n arg) = c) (s : State) :
    exec (.chk v id n arg) s = .next { s with response := [c] } :=
  hc ▸ exec_chk h v id arg s

/-! The codec's own statements. -/

/-- Settles O13: the low six bits by `pid_low`, the other two are the parity bits. -/
theorem pidCommand : Obligations.PidCommand :=
  fun id _ => ⟨pid id, rfl, pid_low id, pid_parity0 id, pid_parity1 id⟩

/-- Settles O14: the responses are the protected identifiers, whose low six bits are the identifiers. -/
theorem pidInjective : Obligations.PidInjective := by
  refine ⟨pid_low, fun a b s t u w ht hw h => ?_⟩
  cases ht
  cases hw
  exact (pid_eq_pid_iff a b).mp (List.head_eq_of_cons_eq h)

/-- Settles O15: the accumulator is the sum modulo 255, and the checksum is its distance from 255. -/
theorem checksumIsAComplementModulo255 : Obligations.ChecksumIsAComplementModulo255 := by
  intro v id data
  have hle := foldl_addCarry_le data (seed_le v id)
  have hmod := foldl_addCarry_mod data (seed v id)
  rw [← seed_eq, chksum_toNat]
  omega

/-- Settles O16: the first two variants test the same identifiers as R105; the third does but for 0x3D, where the empty sequence
already tells them apart. -/
theorem diagnosticVariantsAgree : Obligations.DiagnosticVariantsAgree := by
  refine ⟨pid_diag_iff, fun v id data => chksum_of_seed_test v id data (pid_diag_iff id), fun v id data hD => ?_,
    [], by decide⟩
  exact chksum_of_seed_test v id data (or_congr (pid_eq_pid_iff id 0x3C) (iff_of_false (pid_ne_0x3D id) hD))

/-- Settles O17: the seed is 0 under V1 and for the diagnostic identifiers, else PID(id); the sums are then computed. -/
theorem checksumCorners : Obligations.ChecksumCorners := by
  intro s id arg
  have hv1 := chksum_of_seed_zero (seed_v1 id)
  refine ⟨exec_chk_eq (by decide) ?_ s, fun hC hD => exec_chk_eq (by decide) (chksum_nil_v2 hC hD) s, ?_, ?_,
    exec_chk_eq (by decide) ?_ s, exec_chk_eq (by decide) ?_ s, exec_chk_eq (by decide) ?_ s, ?_, ?_⟩
  · exact hv1 []
  · rintro rfl
    exact exec_chk_eq (by decide) (by rfl) s
  · intro hdiag
    exact exec_chk_eq (by decide) (chksum_of_seed_zero (seed_diag .v2 hdiag) []) s
  · rw [hv1]; decide
  · rw [hv1]; decide
  · rw [hv1]; decide
  · rintro rfl
    exact exec_chk_eq (by decide) (by decide) s
  · rintro rfl
    exact exec_chk_eq (by decide) (by decide) s

/-- Settles O18, by the equation of CHK. -/
theorem chkCommand : Obligations.ChkCommand := fun v id _ arg s hn => exec_chk hn v id arg s

/-! Buffers that start with a list of bytes (R30, R110, R111). -/

theorem Buf.at_ofBytes_of_length {bs : List Byte} (h : bs.length ≤ 12) (i : Nat) : (Buf.ofBytes bs).at i = bs.getD i 0x00 := by
  by_cases hi : i < 12
  · exact Buf.at_ofBytes bs hi
  · rw [Buf.at_of_ge _ (by omega), List.getD_eq_default _ _ (by omega)]

/-- A buffer of zeros into which bytes are received from index 0 on starts with those bytes (R154). -/
theorem Buf.store_zero (bs : List Byte) : Buf.zero.store 0 bs = Buf.ofBytes bs := by
  apply Buf.ext_at
  intro i hi
  rw [Buf.at_store bs _ _ hi, Buf.at_ofBytes bs hi, Buf.at_zero]
  by_cases h : i < bs.length
  · simp [h]
  · rw [if_neg (by omega), List.getD_eq_default _ _ (by omega)]

@[simp] theorem headerBytes_length (id : BitVec 6) : (headerBytes id).length = 3 := rfl

section frameBytes
variable (id : BitVec 6) {data : List Byte} (h : data.length ≤ 8) (c : Byte)

/-- The length of header, data and checksum byte (R110). -/
theorem frameBytes_length : (headerBytes id ++ data ++ [c]).length = 4 + data.length := by
  simp only [List.length_append, headerBytes_length, List.length_singleton]
  omega

theorem frameBytes_slice_header (data : List Byte) :
    (Buf.ofBytes (headerBytes id ++ data ++ [c])).slice 0 3 = headerBytes id := by
  rw [List.append_assoc]
  exact Buf.slice_ofBytes [] (headerBytes id) (data ++ [c]) (by simp)

include h

theorem frameBytes_slice_data : (Buf.ofBytes (headerBytes id ++ data ++ [c])).slice 3 data.length = data :=
  Buf.slice_ofBytes (headerBytes id) data [c] (show 3 + data.length ≤ 12 by omega)

theorem frameBytes_at_checksum : (Buf.ofBytes (headerBytes id ++ data ++ [c])).at (3 + data.length) = c := by
  rw [Buf.at_ofBytes _ (by omega), frame_last]

theorem frameBytes_at_beyond {j : Nat} (hj : 4 + data.length ≤ j) :
    (Buf.ofBytes (headerBytes id ++ data ++ [c])).at j = 0x00 := by
  have hlen := frameBytes_length id (data := data) c
  rw [Buf.at_ofBytes_of_length (by omega), List.getD_eq_default _ _ (by omega)]

end frameBytes

/-- The byte at index `k` of a slice. -/
theorem Buf.at_of_slice_eq {b : Buf} {lo len : Nat} {bs : List Byte} (h : b.slice lo len = bs) {k : Nat} (hk : k < bs.length) :
    b.at (lo + k) = bs[k] := by
  subst h
  simp [Buf.slice]

/-- Settles O19: the header, the data and the checksum byte are read back, and nothing stands beyond them. -/
theorem masterFrameLayout : Obligations.MasterFrameLayout := by
  intro v id data b hn f
  have hheader : f.txBuf.slice 0 3 = headerBytes id := frameBytes_slice_header id _ data
  have hdata : f.txBuf.slice 3 data.length = data := frameBytes_slice_data id hn _
  have hlen : f.txLen.toNat = 4 + data.length := by
    change (BitVec.ofNat 4 (4 + data.length)).toNat = _
    rw [BitVec.toNat_ofNat]; omega
  exact ⟨Buf.at_of_slice_eq hheader (k := 0) (by simp), Buf.at_of_slice_eq hheader (k := 1) (by simp),
    Buf.at_of_slice_eq hheader (k := 2) (by simp), fun k hk => Buf.at_of_slice_eq hdata hk,
    frameBytes_at_checksum id hn _, fun j hj _ => frameBytes_at_beyond id hn _ hj, hlen, rfl, rfl⟩

/-- Settles O20: the header is read back, and nothing stands beyond it. -/
theorem slaveFrameLayout : Obligations.SlaveFrameLayout := by
  intro id n b hn f
  have htx (i : Nat) : f.txBuf.at i = (headerBytes id).getD i 0x00 := Buf.at_ofBytes_of_length (by simp) i
  have hlen : f.rxLen.toNat = 3 + n.toNat + 1 := by
    change (BitVec.ofNat 4 (3 + n.toNat + 1)).toNat = _
    rw [BitVec.toNat_ofNat]; omega
  exact ⟨htx 0, htx 1, htx 2, fun j hj _ => (htx j).trans (List.getD_eq_default _ _ hj), rfl, hlen, rfl⟩

/-! The validator, by its result (R112). -/

theorem checkFrame_eq_echo_iff (b : Block) :
    checkFrame b = .echo ↔ ∃ i, i < b.txLen.toNat ∧ b.rxBuf.at i ≠ b.txBuf.at i := by
  obtain ⟨hne, e⟩ | ⟨heq, -, e⟩ | ⟨heq, -, e⟩ := checkFrame_cases b
  · exact iff_of_true e hne
  · exact iff_of_false (by rw [e]; decide) fun ⟨i, hi, hne⟩ => hne (heq i hi)
  · exact iff_of_false (by rw [e]; decide) fun ⟨i, hi, hne⟩ => hne (heq i hi)

theorem checkFrame_eq_checksum_iff (b : Block) :
    checkFrame b = .checksum ↔ (∀ i, i < b.txLen.toNat → b.rxBuf.at i = b.txBuf.at i) ∧
      chksum (readVersion b.version) b.id (receivedData b) ≠ b.rxBuf.at (b.rxLen.toNat - 1) := by
  obtain ⟨⟨i, hi, hne⟩, e⟩ | ⟨heq, hc, e⟩ | ⟨-, hc, e⟩ := checkFrame_cases b
  · exact iff_of_false (by rw [e]; decide) fun h => hne (h.1 i hi)
  · exact iff_of_true e ⟨heq, hc⟩
  · exact iff_of_false (by rw [e]; decide) fun h => h.2 hc

theorem checkFrame_eq_ok_iff (b : Block) :
    checkFrame b = .ok ↔ (∀ i, i < b.txLen.toNat → b.rxBuf.at i = b.txBuf.at i) ∧
      chksum (readVersion b.version) b.id (receivedData b) = b.rxBuf.at (b.rxLen.toNat - 1) := by
  obtain ⟨⟨i, hi, hne⟩, e⟩ | ⟨-, hc, e⟩ | ⟨heq, hc, e⟩ := checkFrame_cases b
  · exact iff_of_false (by rw [e]; decide) fun h => hne (h.1 i hi)
  · exact iff_of_false (by rw [e]; decide) fun h => hc h.2
  · exact iff_of_true e ⟨heq, hc⟩

/-- Settles O21: the version register is read back from its code. -/
theorem checkFrameResult : Obligations.CheckFrameResult := by
  intro b v _ hv
  have hread : readVersion b.version = v := by rw [hv, readVersion_versionCode]
  subst hread
  exact ⟨checkFrame_eq_echo_iff b, checkFrame_eq_checksum_iff b, checkFrame_eq_ok_iff b⟩

/-! The tx buffer of a frame (R110, R111). -/

/-- The tx buffer starts with the header of the stored identifier and, in a master request, holds the checksum of its own data
behind the data (R110, R111). -/
def Block.txSound (b : Block) : Prop :=
  b.txBuf.slice 0 3 = headerBytes b.id ∧
    (b.frameType = typeMaster →
      b.txBuf.at (3 + b.numData.toNat) = chksum (readVersion b.version) b.id (b.txBuf.slice 3 b.numData.toNat))

/-- The rx bytes not received are 0x00 (R140, R175). -/
def Block.rxClear (b : Block) : Prop := ∀ i, b.rxCount.toNat ≤ i → b.rxBuf.at i = 0x00

theorem Block.buffersSound_iff (b : Block) : b.buffersSound ↔ (b.framed → b.txSound) ∧ b.rxClear := Iff.rfl

/-- The frame of an accepted master request (R110, R140). -/
theorem acceptedBlock_txSound_master (v : Version) (id : BitVec 6) {n : BitVec 4} {data : List Byte} (s : State)
    (hlen : data.length = n.toNat) (hn : n.toNat ≤ 8) : (acceptedBlock .masterRequest v id n data s).txSound := by
  have h8 : data.length ≤ 8 := hlen ▸ hn
  simp only [Block.txSound, acceptedBlock_txBuf_master, acceptedBlock_id, acceptedBlock_numData, acceptedBlock_version,
    readVersion_versionCode, ← hlen]
  exact ⟨frameBytes_slice_header id _ data, fun _ => by rw [frameBytes_at_checksum id h8, frameBytes_slice_data id h8]⟩

/-- The frame of an accepted slave response (R111, R140). -/
theorem acceptedBlock_txSound_slave (v : Version) (id : BitVec 6) (n : BitVec 4) (data : List Byte) (s : State) :
    (acceptedBlock .slaveResponse v id n data s).txSound := by
  refine ⟨?_, fun h => absurd ((acceptedBlock_frameType ..).symm.trans h) (by decide)⟩
  rw [acceptedBlock_txBuf_slave, acceptedBlock_id]
  exact Buf.slice_ofBytes [] (headerBytes id) [] (by simp)

/-- Once the echo of a master request matches, the received checksum is the one sent with the same data (R116). -/
theorem checkFrame_ne_checksum {b : Block} (hm : b.frameType = typeMaster) (hrx : b.rxLen.toNat = 4 + b.numData.toNat)
    (htx : b.txLen.toNat = 4 + b.numData.toNat) (hs : b.txSound) : checkFrame b ≠ .checksum := by
  intro h
  obtain ⟨hecho, hne⟩ := (checkFrame_eq_checksum_iff b).mp h
  refine hne ?_
  have hdata : receivedData b = b.txBuf.slice 3 b.numData.toNat := by
    rw [receivedData, show b.rxLen.toNat - 4 = b.numData.toNat by omega]
    exact Buf.slice_congr fun k hk => hecho (3 + k) (by omega)
  calc chksum (readVersion b.version) b.id (receivedData b)
      = b.txBuf.at (3 + b.numData.toNat) := by rw [hdata, hs.2 hm]
    _ = b.rxBuf.at (3 + b.numData.toNat) := (hecho _ (by omega)).symm
    _ = b.rxBuf.at (b.rxLen.toNat - 1) := by rw [hrx]; congr 1; omega

/-- Where CHECKSUM is excluded, the echo alone decides (R116). -/
theorem checkFrame_eq_ok_iff_echo {b : Block} (h : checkFrame b ≠ .checksum) :
    checkFrame b = .ok ↔ ∀ i, i < b.txLen.toNat → b.rxBuf.at i = b.txBuf.at i := by
  refine ⟨fun e => ((checkFrame_eq_ok_iff b).mp e).1, fun hecho => (checkFrame_eq_ok_iff b).mpr ⟨hecho, ?_⟩⟩
  by_contra hc
  exact h ((checkFrame_eq_checksum_iff b).mpr ⟨hecho, hc⟩)

/-- The data and the checksum byte that checkFrame reads of an accepted slave response, whatever was received (R111, R112). -/
theorem received_slave (v : Version) (id : BitVec 6) {n : BitVec 4} (s : State) (rx : Buf) (hn : n.toNat ≤ 8) :
    let c := { acceptedBlock .slaveResponse v id n [] s with rxBuf := rx }
    chksum (readVersion c.version) c.id (receivedData c) = chksum v id (rx.slice 3 n.toNat) ∧
      c.rxBuf.at (c.rxLen.toNat - 1) = rx.at (3 + n.toNat) := by
  obtain ⟨-, hrx⟩ := acceptedBlock_lens_slave v id n [] s hn
  simp only [receivedData, hrx, acceptedBlock_version, acceptedBlock_id, readVersion_versionCode, Nat.add_sub_cancel_left]
  exact ⟨trivial, by congr 1; omega⟩

/-- Settles O22: a master request by `checkFrame_ne_checksum`; of a slave response the header alone is echoed. -/
theorem echoDecidesMasterFrames : Obligations.EchoDecidesMasterFrames := by
  intro s v id n data rx hn
  refine ⟨?_, ?_⟩
  · intro hlen b
    obtain ⟨htx, hrx⟩ := acceptedBlock_lens_master v id n data s hlen hn
    have hne : checkFrame b ≠ .checksum := checkFrame_ne_checksum rfl hrx htx (acceptedBlock_txSound_master v id s hlen hn)
    exact ⟨htx ▸ checkFrame_eq_ok_iff_echo hne, hne⟩
  · intro c
    obtain ⟨hdata, hlast⟩ := received_slave v id s rx hn
    refine ⟨checkFrame_eq_echo_iff c, fun hne => (checkFrame_eq_checksum_iff c).trans ?_⟩
    have hecho : ∀ i, i < c.txLen.toNat → c.rxBuf.at i = c.txBuf.at i := fun i hi => by
      by_contra h
      exact hne ((checkFrame_eq_echo_iff c).mpr ⟨i, hi, h⟩)
    rw [and_iff_right hecho, hdata, hlast]
    exact ne_comm

/-- checkFrame of a slave response that echoes the header and delivers any data and a last byte (R116, R117). -/
theorem checkFrame_slave (v : Version) (id : BitVec 6) {n : BitVec 4} {data : List Byte} (last : Byte) (s : State)
    (hlen : data.length = n.toNat) (hn : n.toNat ≤ 8) :
    checkFrame { acceptedBlock .slaveResponse v id n [] s with rxBuf := Buf.ofBytes (headerBytes id ++ data ++ [last]) } =
      if last = chksum v id data then .ok else .checksum := by
  have h8 : data.length ≤ 8 := hlen ▸ hn
  have hecho : ∀ i, i < 3 → (Buf.ofBytes (headerBytes id ++ data ++ [last])).at i = (Buf.ofBytes (headerBytes id)).at i := by
    intro i hi
    rw [Buf.at_ofBytes _ (by omega), Buf.at_ofBytes _ (by omega), List.append_assoc, List.getD_append _ _ _ _ hi]
  obtain ⟨hdata, hlast⟩ := received_slave v id s (Buf.ofBytes (headerBytes id ++ data ++ [last])) hn
  rw [← hlen, frameBytes_slice_data id h8] at hdata
  rw [← hlen, frameBytes_at_checksum id h8] at hlast
  split
  next h => exact (checkFrame_eq_ok_iff _).mpr ⟨hecho, by rw [hdata, hlast, h]⟩
  next h => exact (checkFrame_eq_checksum_iff _).mpr ⟨hecho, by rw [hdata, hlast]; exact Ne.symm h⟩

/-- Settles O23: the last byte is the checksum. -/
theorem checksumRoundTrip : Obligations.ChecksumRoundTrip :=
  fun s v id _ data hn hlen => (checkFrame_slave v id (chksum v id data) s hlen hn).trans (if_pos rfl)

/-! The invariant of the buffers (R110, R111, R140, R154, R175). -/

/-- A reception fills positions below the new count only (R154). -/
theorem Block.rxClear.receive {s : State} (h : s.blk.rxClear) : (receive s).blk.rxClear := by
  intro i hi
  rw [receive_rxCount] at hi
  by_cases h12 : i < 12
  · have hread : (s.tp.rxFifo.take (readCount s)).length ≤ readCount s := List.length_take_le ..
    rw [receive_blk]
    dsimp only
    rw [Buf.at_store _ _ _ h12, if_neg (by omega)]
    exact h i (by omega)
  · exact Buf.at_of_ge _ (by omega)

/-- In BODY the control invariant gives the frame, and the reception leaves the tx buffer (R33, R154). -/
theorem receive_buffersSound {s : State} (hinv : s.Inv) (hs : s.blk.state = stBody) (h : s.blk.buffersSound) :
    (receive s).blk.buffersSound := by
  obtain ⟨-, -, -, hflight, -⟩ := hinv
  obtain ⟨-, hf⟩ := hflight (.inr hs)
  obtain ⟨htx, hrx⟩ := s.blk.buffersSound_iff.mp h
  exact (Block.buffersSound_iff _).mpr ⟨fun _ => htx hf, hrx.receive⟩

theorem Advance.keepsBuffers {s u : State} (hu : Advance s u) (hinv : s.Inv) (h : s.blk.buffersSound) :
    u.blk.buffersSound := by
  cases hu with
  | quiet | toBody | breakLate | breakWaits | illegal => exact h
  | bodyOk hs | bodyEcho hs | bodyChecksum hs | bodyLate hs | bodyWaits hs => exact receive_buffersSound hinv hs h

/-- An accepted request clears the rx buffer, so only its tx buffer matters (R140). -/
theorem startTransaction_buffersSound {kind : FrameType} {v : Version} {id : BitVec 6} {n : BitVec 4} {data : List Byte}
    {s : State} (h : (acceptedBlock kind v id n data s).txSound) : (startTransaction kind v id n data s).blk.buffersSound := by
  refine (Block.buffersSound_iff _).mpr ⟨fun _ => h, fun i _ => ?_⟩
  rw [startTransaction_blk]
  dsimp only
  rw [acceptedBlock_rxBuf, Buf.at_zero]

theorem Effect.keepsBuffers {i : Instr} {s t : State} (ht : Effect i s t) (hinv : s.Inv) (h : s.blk.buffersSound) :
    t.blk.buffersSound := by
  cases ht with
  | ignored | opened | closed | rejected | cleared | toIdle | read => exact h
  | acceptedMaster v id n arg _ hn =>
    exact startTransaction_buffersSound (acceptedBlock_txSound_master v id s (operandData_length n arg) hn)
  | acceptedSlave v id n => exact startTransaction_buffersSound (acceptedBlock_txSound_slave v id n [] s)
  | stepped _ _ hu => exact hu.keepsBuffers hinv h

/-- A reset of the block clears the buffers; the transport's steps do not touch them (R130, R230). -/
theorem envStep_keepsBuffers (s : State) (e : EnvEvent) (h : s.blk.buffersSound) : (envStep s e).blk.buffersSound := by
  cases e with
  | transport te => exact h
  | coreReset =>
    obtain ⟨-, hreset, -⟩ := invariantsAtReset
    exact hreset

/-- Settles O52: the environment, the sampling, every command and an ignored opcode each keep both invariants. -/
theorem buffersStaySound : Obligations.BuffersStaySound :=
  fun _ _ hinv hb h => (step_keeps (P := fun s => s.Inv ∧ s.blk.buffersSound)
    (fun s e hs => ⟨envStep_keepsInv s e hs.1, envStep_keepsBuffers s e hs.2⟩) (fun _ _ _ hs => hs)
    (fun _ _ _ hs ht => ⟨ht.keepsInv hs.1, ht.keepsBuffers hs.1 hs.2⟩) (fun _ hs => hs) ⟨hinv, hb⟩ h).2

/-- A master request whose buffers are sound is never found to have a wrong checksum in BODY (R116). -/
theorem checkFrame_receive_ne_checksum {s : State} (hinv : s.Inv) (hb : s.blk.buffersSound)
    (hm : s.blk.frameType = typeMaster) (hs : s.blk.state = stBody) : checkFrame (receive s).blk ≠ .checksum := by
  obtain ⟨-, -, -, hflight, -⟩ := hinv
  obtain ⟨-, hf⟩ := hflight (.inr hs)
  obtain ⟨hsound, -⟩ := s.blk.buffersSound_iff.mp hb
  obtain ⟨-, hrx, htx, -⟩ := id hf
  exact checkFrame_ne_checksum hm hrx (htx.trans (if_pos hm)) (hsound hf)

/-- Settles O54: the error register is clear while the request is in flight, and STEP latches ECHO or TIMEOUT at most. -/
theorem masterRequestNeverEndsInChecksum : Obligations.MasterRequestNeverEndsInChecksum := by
  intro s t hinv hb hm hin h
  obtain ⟨hlegal, -, -, hflight, -⟩ := id hinv
  obtain ⟨hclear, -⟩ := hflight hin
  cases h
  have hlatch (e : Byte) (he : e ∈ [0x00, errEcho, errTimeout]) : s.blk.error ||| e ∈ ([0x00, 0x02, 0x04] : List Byte) := by
    rw [hclear]
    revert e; decide
  have hu := advance_inv s
  change (advance s).blk.error ∈ _
  generalize advance s = u at hu
  cases hu with
  | quiet | toBody | breakWaits | bodyOk | bodyWaits => exact BitVec.or_zero (x := s.blk.error) ▸ hlatch 0x00 (by decide)
  | breakLate | bodyLate => exact hlatch errTimeout (by decide)
  | bodyEcho => exact hlatch errEcho (by decide)
  | bodyChecksum hs _ hf => exact absurd hf (checkFrame_receive_ne_checksum hinv hb hm hs)
  | illegal hs => exact absurd hlegal hs

/-! A whole transaction over a transport that delivers its frame (R153 to R155, R178, R179). -/

/-- STEP once the break is done (R153). -/
theorem advance_of_breakDone {s : State} (hs : s.blk.state = stBreak) (hb : s.tp.breakDone = true) : advance s =
    setState stBody { s with tp := s.tp.write (s.blk.txBuf.slice 1 (s.blk.txLen.toNat - 1)) } := by
  have e : advance s = stepBreak s := by simp [advance, hs]
  exact e.trans (if_pos hb)

/-- STEP in BODY once the frame is complete (R155). -/
theorem advance_of_complete {s : State} (hs : s.blk.state = stBody) (hc : (receive s).blk.rxCount = s.blk.rxLen) :
    advance s = concludeFrame (receive s) := by
  have e : advance s = concludeBody (receive s) := by simp [advance, hs]
  exact e.trans (if_pos hc)

/-- The block after a complete frame is received and judged: DONE, the bytes in the rx buffer, and the frame check's bit latched
(R154, R155). -/
def Block.concluded (b : Block) (received : List Byte) : Block :=
  { b with
    state := stDone
    error := b.error ||| frameCheckError (checkFrame { b with rxBuf := Buf.ofBytes received })
    rxCount := b.rxLen
    rxBuf := Buf.ofBytes received }

/-- The conclusion of a complete frame, in one equation: OK latches no bit (R155). -/
theorem concludeFrame_blk (s : State) : (concludeFrame s).blk =
    { s.blk with state := stDone, error := s.blk.error ||| frameCheckError (checkFrame s.blk) } := by
  obtain ⟨hf, e⟩ | ⟨hf, e⟩ | ⟨hf, e⟩ := concludeFrame_cases s <;> rw [e, hf]
  · simp [frameCheckError]
  · rfl
  · rfl

/-- With nothing received before and the whole frame in the FIFO, one reception takes it all (R154). -/
theorem receive_whole_frame {s : State} (hc : s.blk.rxCount = 0) (hz : s.blk.rxBuf = Buf.zero)
    (hlen : s.tp.rxFifo.length = s.blk.rxLen.toNat) :
    (receive s).blk = { s.blk with rxBuf := Buf.ofBytes s.tp.rxFifo, rxCount := s.blk.rxLen } := by
  have hread : readCount s = s.blk.rxLen.toNat := by
    simp [readCount, hlen, hc]
  rw [receive_blk, hread, ← hlen, List.take_length, hlen, hc, hz]
  simp [Buf.store_zero]

/-- A STEP of the host with no reset before it runs on the block as it is and the transport as the environment leaves it (R130). -/
theorem issue_step_sampled {d : Draw} (hd : d.noReset) (s : State) : ∃ w, issue .step d s = .next (respondState (advance w)) ∧
    w.blk = s.blk ∧ w.tp = (envSteps d.env s).tp :=
  ⟨_, issue_step_next d s, envSteps_blk_of_noReset hd s, rfl⟩

/-- What a completed break makes of a transport whose core has started one (R130, R135). -/
theorem envSteps_breakCompletes_tp {s : State} (ha : .tpBreak ∈ s.tp.actions) : (envSteps breakCompletes s).tp =
    { s.tp with rxFifo := s.tp.rxFifo ++ [breakMark], breakDone := true } := by
  simp [envSteps, breakCompletes, envStep, Transport.react, ha]

/-- A STEP of the host that finds the break completed goes on to BODY, with the break's byte in the FIFO (R135, R153). -/
theorem issue_step_breakCompletes {s : State} (now : BitVec 32) (hs : s.blk.state = stBreak) (ha : .tpBreak ∈ s.tp.actions) :
    ∃ t, issue .step ⟨breakCompletes, now⟩ s = .next t ∧ t.blk = { s.blk with state := stBody } ∧
      t.tp.rxFifo = s.tp.rxFifo ++ [breakMark] ∧ t.response = [stBody] := by
  obtain ⟨w, hw, hblk, htp⟩ := issue_step_sampled (d := ⟨breakCompletes, now⟩) (by simp [Draw.noReset, breakCompletes]) s
  rw [envSteps_breakCompletes_tp ha] at htp
  rw [advance_of_breakDone (by rw [hblk, hs]) (by rw [htp])] at hw
  exact ⟨_, hw, by simp [hblk], by simp [htp], rfl⟩

/-- A STEP of the host in BODY, with nothing received yet, that finds all bytes of the frame delivered concludes the frame with
those bytes (R154, R155). -/
theorem issue_step_delivers {s : State} (now : BitVec 32) (bytes : List Byte) (hs : s.blk.state = stBody)
    (hc : s.blk.rxCount = 0) (hz : s.blk.rxBuf = Buf.zero) (hlen : (s.tp.rxFifo ++ bytes).length = s.blk.rxLen.toNat) :
    ∃ t, issue .step ⟨bytes.map fun b => .transport (.rx b), now⟩ s = .next t ∧
      t.blk = s.blk.concluded (s.tp.rxFifo ++ bytes) ∧ t.response = [stDone] := by
  obtain ⟨w, hw, hblk, htp⟩ := issue_step_sampled (d := ⟨bytes.map fun b => .transport (.rx b), now⟩) (by simp [Draw.noReset]) s
  rw [envSteps_rx] at htp
  have hrec := receive_whole_frame (s := w) (by rw [hblk, hc]) (by rw [hblk, hz]) (by rw [hblk, htp, hlen])
  rw [advance_of_complete (by rw [hblk, hs]) (by rw [hrec])] at hw
  rw [hblk, htp] at hrec
  refine ⟨_, hw, ?_, ?_⟩
  · rw [respondState_blk, concludeFrame_blk, hrec]; rfl
  · rw [respondState_response, concludeFrame_blk]

/-- An accepted request of the host starts the transaction (R140). -/
theorem issue_request {i : Instr} {kind : FrameType} {v : Version} {id : BitVec 6} {n : BitVec 4} {data : List Byte}
    (hi : ∀ s, exec i s = request kind v id n data s) (now : BitVec 32) {s : State} (hs : s.blk.state = stIdle)
    (ho : s.tp.isOpen = true) : issue i ⟨[], now⟩ s = .next (startTransaction kind v id n data { s with now := now }) := by
  rw [issue_eq (decode_encode i), hi]
  exact (if_neg (not_not.mpr hs)).trans (if_pos ho)

/-- Polling an accepted request whose break completes and whose other bytes are then delivered: two STEPs reach DONE, with the
frame judged (R153 to R155, R178). -/
theorem pollDone_delivers {kind : FrameType} {v : Version} {id : BitVec 6} {n : BitVec 4} {data : List Byte} {s : State}
    (t1 t2 : BitVec 32) {bytes : List Byte} (hlen : 1 + bytes.length = (acceptedBlock kind v id n data s).rxLen.toNat) :
    ∃ u, pollDone [⟨breakCompletes, t1⟩, ⟨bytes.map fun b => .transport (.rx b), t2⟩] (startTransaction kind v id n data s) =
        .finished () u ∧ u.blk = (acceptedBlock kind v id n data s).concluded (breakMark :: bytes) := by
  obtain ⟨t, ht, hblk, hfifo, hresp⟩ :=
    issue_step_breakCompletes (s := startTransaction kind v id n data s) t1 rfl (by simp)
  rw [startTransaction_tp, startBreak_rxFifo, drain_rxFifo, List.nil_append] at hfifo
  obtain ⟨u, hu, hublk, huresp⟩ := issue_step_delivers (s := t) t2 bytes (by rw [hblk]) (by simp [hblk]) (by simp [hblk])
    (by simpa [hblk, hfifo, Nat.add_comm] using hlen)
  refine ⟨u, ?_, ?_⟩
  · rw [pollDone_cons _ _ (by simp) ht, pollDone_cons _ _ (by simp [hresp]) hu, pollDone_done _ huresp]
  · rw [hublk, hfifo, hblk]; rfl

@[simp] theorem Blocking.finished_andThen {α β : Type} (r : α) (s : State) (f : α → State → Blocking β) :
    (Blocking.finished r s).andThen f = f r s := rfl

theorem exec_getfrm (s : State) : exec .getfrm s = .next (respond (frameResponse s.blk) s) := rfl

/-- GETERR of the host (R171). -/
theorem issueFor_geterr (now : BitVec 32) (s : State) : issueFor .geterr ⟨[], now⟩ s =
    .finished [s.blk.error] { s with now := now, response := [s.blk.error] } :=
  issueFor_of_next (issue_geterr ⟨[], now⟩ s)

/-- GETFRM of the host (R174). -/
theorem issueFor_getfrm (now : BitVec 32) (s : State) : issueFor .getfrm ⟨[], now⟩ s =
    .finished (frameResponse s.blk) { s with now := now, response := frameResponse s.blk } :=
  issueFor_of_next (issue_getfrm ⟨[], now⟩ s)

/-- The echo of a whole master request passes checkFrame (R116). -/
theorem checkFrame_master_echo (v : Version) (id : BitVec 6) {n : BitVec 4} {data : List Byte} (s : State)
    (hlen : data.length = n.toNat) (hn : n.toNat ≤ 8) :
    checkFrame { acceptedBlock .masterRequest v id n data s with
      rxBuf := Buf.ofBytes (headerBytes id ++ data ++ [chksum v id data]) } = .ok := by
  obtain ⟨htx, hrx⟩ := acceptedBlock_lens_master v id n data s hlen hn
  refine (checkFrame_eq_ok_iff_echo ?_).mpr fun _ _ => rfl
  exact checkFrame_ne_checksum rfl hrx htx (acceptedBlock_txSound_master v id s hlen hn)

/-- What GETFRM gives of a judged master request: the data sent (R174, R175). -/
theorem frameResponse_master (v : Version) (id : BitVec 6) {n : BitVec 4} {data : List Byte} (s : State) (received : List Byte)
    (hlen : data.length = n.toNat) (hn : n.toNat ≤ 8) :
    frameResponse ((acceptedBlock .masterRequest v id n data s).concluded received) =
      [typeMaster, id.setWidth 8, n.setWidth 8] ++ data := by
  have hdata := frameBytes_slice_data id (hlen ▸ hn : data.length ≤ 8) (chksum v id data)
  rw [hlen] at hdata
  exact congrArg ([typeMaster, id.setWidth 8, n.setWidth 8] ++ ·) hdata

/-- What GETFRM gives of a judged slave response: the data received (R174, R175). -/
theorem frameResponse_slave (v : Version) (id : BitVec 6) {n : BitVec 4} {data : List Byte} (last : Byte) (s : State)
    (hlen : data.length = n.toNat) (hn : n.toNat ≤ 8) :
    frameResponse ((acceptedBlock .slaveResponse v id n [] s).concluded (headerBytes id ++ data ++ [last])) =
      [typeSlave, id.setWidth 8, n.setWidth 8] ++ data := by
  have hdata := frameBytes_slice_data id (hlen ▸ hn : data.length ≤ 8) last
  rw [hlen] at hdata
  exact congrArg ([typeSlave, id.setWidth 8, n.setWidth 8] ++ ·) hdata

/-- Settles O57: the polls judge the echo of the whole frame, which is OK, and GETFRM reads the tx buffer. -/
theorem loopbackMasterRequestSucceeds : Obligations.LoopbackMasterRequestSucceeds := by
  intro v id n arg s t0 t1 t2 t3 hn hs ho data echo
  have hlen : data.length = n.toNat := operandData_length n arg
  have hreq : issue (.mreq v id n arg) ⟨[], t0⟩ s = .next (startTransaction .masterRequest v id n data { s with now := t0 }) :=
    issue_request (exec_mreq hn v id arg) t0 hs ho
  obtain ⟨-, hrx⟩ := acceptedBlock_lens_master v id n data { s with now := t0 } hlen hn
  obtain ⟨u, hpoll, hblk⟩ := pollDone_delivers (kind := .masterRequest) (v := v) (id := id) (n := n) (data := data)
    (s := { s with now := t0 }) t1 t2 (bytes := echo) (by rw [hrx, ← hlen]; simp [echo]; omega)
  have hok : checkFrame _ = .ok := checkFrame_master_echo v id { s with now := t0 } hlen hn
  have herr : u.blk.error = 0x00 := by
    rw [hblk]; exact congrArg (0x00 ||| frameCheckError ·) hok
  have hfrm : frameResponse u.blk = [typeMaster, id.setWidth 8, n.setWidth 8] ++ data := by
    rw [hblk]; exact frameResponse_master v id _ _ hlen hn
  refine ⟨{ u with now := t3, response := [u.blk.error] }, ?_, ?_, herr, ?_⟩
  · simp only [mreqb, issueFor_of_next hreq, Blocking.finished_andThen, hpoll, issueFor_geterr, herr]
  · rw [hblk]; rfl
  · rw [exec_getfrm, hfrm]; rfl

/-- Settles O58: the polls judge the delivered frame by its last byte, and GETFRM reads the rx buffer. -/
theorem slaveResponseIsDelivered : Obligations.SlaveResponseIsDelivered := by
  intro v id n data last s t0 t1 t2 t3 t4 hn hlen hs ho bytes
  have hreq := issue_request (exec_sresp hn v id) t0 hs ho
  obtain ⟨-, hrx⟩ := acceptedBlock_lens_slave v id n [] { s with now := t0 } hn
  obtain ⟨u, hpoll, hblk⟩ := pollDone_delivers (kind := .slaveResponse) (v := v) (id := id) (n := n) (data := [])
    (s := { s with now := t0 }) t1 t2 (bytes := bytes) (by rw [hrx, ← hlen]; simp [bytes]; omega)
  have hcheck := checkFrame_slave v id last { s with now := t0 } hlen hn
  have herr : u.blk.error = if last = chksum v id data then 0x00 else 0x08 := by
    rw [hblk]
    refine (congrArg (0x00 ||| frameCheckError ·) hcheck).trans ?_
    split <;> rfl
  have hfrm : frameResponse u.blk = [typeSlave, id.setWidth 8, n.setWidth 8] ++ data := by
    rw [hblk]; exact frameResponse_slave v id last _ hlen hn
  refine ⟨{ u with now := t4, response := frameResponse u.blk }, ?_, ?_⟩
  · simp only [srespb, issueFor_of_next hreq, Blocking.finished_andThen, hpoll, issueFor_geterr, issueFor_getfrm, herr, hfrm]
    simp [← hlen]
  · rw [hblk]; rfl

end Sys2Proof.Machine

/-! PROOFS of the family 41_transaction. The transport and the block apart (R130, R232), the timeout (R137, R138), the commands
that drive a transaction (R139 to R145, R150 to R160), the table of the state register (R161), and how polling ends (R158, R178,
R180). -/

namespace Sys2Proof.Machine

/-! The environment (R130, R232). -/

/-- A reset of the block after any steps of the environment (R230, R232). -/
theorem envSteps_append_coreReset (es : List EnvEvent) (s : State) :
    envSteps (es ++ [.coreReset]) s = { envSteps es s with blk := Block.reset } := by
  rw [envSteps, List.foldl_append]
  rfl

/-- Settles O11: without a reset the block is untouched, and a reset writes the block alone. -/
theorem environmentAndBlockAreApart : Obligations.EnvironmentAndBlockAreApart := by
  intro s es
  rw [envSteps_append_coreReset]
  exact ⟨fun h => envSteps_blk_of_noReset h s, rfl, rfl⟩

/-! The timeout (R137, R138). -/

/-- The largest budget of R137: 12 bytes at 1 baud with a factor of 1000 percent. -/
theorem timeoutNat_le {rxLen : BitVec 4} {pct : Nat} (baud : BitVec 32) (hlen : rxLen.toNat ≤ 12) (hpct : pct ≤ 1000) :
    timeoutNat rxLen baud pct ≤ 1200000000 := by
  have hbyte : byteTimeUs baud ≤ 10000000 := Nat.div_le_self ..
  calc timeoutNat rxLen baud pct
      ≤ 12 * 10000000 * 1000 / 100 := Nat.div_le_div_right (Nat.mul_le_mul (Nat.mul_le_mul hlen hbyte) hpct)
    _ = 1200000000 := by norm_num

/-- Above 10 MBaud a byte takes less than a microsecond, and the budget is 0 (R137). -/
theorem timeoutNat_of_fast {baud : BitVec 32} (h : 10000000 < baud.toNat) (rxLen : BitVec 4) (pct : Nat) :
    timeoutNat rxLen baud pct = 0 := by
  have hbyte : byteTimeUs baud = 0 := Nat.div_eq_of_lt h
  rw [timeoutNat, hbyte, Nat.mul_zero, Nat.zero_mul, Nat.zero_div]

/-- Settles O43: the budget is at most 1200000000, so the register holds it whole. -/
theorem timeoutBudgetIsExact : Obligations.TimeoutBudgetIsExact := by
  intro rxLen baud cfg ⟨_, hpct⟩ hlen
  have hle := timeoutNat_le baud hlen hpct
  have hexact : (timeoutBudget rxLen baud cfg).toNat = timeoutNat rxLen baud cfg.timeoutPct := by
    rw [timeoutBudget, BitVec.toNat_ofNat, Nat.mod_eq_of_lt (by omega)]
  refine ⟨hexact, hexact ▸ hle, fun hfast => ?_⟩
  rw [timeoutBudget, timeoutNat_of_fast hfast]
  rfl

/-- Settles O44: the difference of the two times is `d` modulo 2^32. -/
theorem timedOutAcrossTheWrap : Obligations.TimedOutAcrossTheWrap := by
  intro s d hnow
  have helapsed : (s.now - s.blk.tStart).toNat = d % 2 ^ 32 := by
    rw [hnow, BitVec.add_comm, BitVec.add_sub_cancel, BitVec.toNat_ofNat]
  have hiff : timedOut s = true ↔ s.blk.timeoutUs.toNat < d % 2 ^ 32 := by rw [timedOut_iff, helapsed]
  exact ⟨hiff, fun hd => by rwa [Nat.mod_eq_of_lt hd] at hiff⟩

/-! OPEN, CLOSE and RSTSM (R141, R142, R160). -/

theorem exec_openTp {baud : BitVec 32} (h : baud ≠ 0) (s : State) : exec (.openTp baud) s =
    .next (respond [] { s with tp := s.tp.openAt baud, blk := { s.blk with baud := baud, state := stIdle } }) :=
  if_pos ((baudOk_iff baud).mpr h)

/-- Settles O24, by the equation of OPEN. -/
theorem openCommand : Obligations.OpenCommand := fun _ s h => exec_openTp h s

/-- Settles O25: CLOSE has one case only. -/
theorem closeCommand : Obligations.CloseCommand := fun _ => rfl

/-- Settles O26: RSTSM has one case only. -/
theorem rstsmCommand : Obligations.RstsmCommand := fun _ => rfl

/-! Requests (R139, R140, R145). -/

section request
variable (kind : FrameType) (v : Version) (id : BitVec 6) (n : BitVec 4) (data : List Byte) {s : State}

theorem request_of_not_idle (h : s.blk.state ≠ stIdle) : request kind v id n data s = .next (rejectRequest s) := if_pos h

theorem request_of_idle (h : s.blk.state = stIdle) : request kind v id n data s = acceptRequest kind v id n data s :=
  if_neg (not_not.mpr h)

theorem request_of_open (h : s.blk.state = stIdle) (ho : s.tp.isOpen = true) :
    request kind v id n data s = .next (startTransaction kind v id n data s) :=
  (request_of_idle kind v id n data h).trans (if_pos ho)

theorem request_of_closed (h : s.blk.state = stIdle) (ho : s.tp.isOpen = false) :
    request kind v id n data s = .fault .transportClosed :=
  (request_of_idle kind v id n data h).trans (if_neg (Bool.eq_false_iff.mp ho))

end request

/-- Settles O27: both commands are the request of their type, and the guard rejects it. -/
theorem requestRejectedUnlessIdle : Obligations.RequestRejectedUnlessIdle := by
  intro v id n arg s hn hs t
  rw [exec_mreq hn, exec_sresp hn]
  exact ⟨request_of_not_idle _ v id n _ hs, request_of_not_idle _ v id n _ hs⟩

/-- Settles O30: both commands are the request of their type, and the accepted request finds the transport closed. -/
theorem requestOnClosedTransportFaults : Obligations.RequestOnClosedTransportFaults := by
  intro v id n arg s hn hs ho
  rw [exec_mreq hn, exec_sresp hn]
  exact ⟨request_of_closed _ v id n _ hs ho, request_of_closed _ v id n _ hs ho⟩

/-- The transport's part of an accepted request (R134, R135, R140). -/
theorem drain_startBreak (tp : Transport) : tp.drain.startBreak =
    { tp with rxFifo := [], breakDone := false, actions := tp.actions ++ [.tpDrain, .tpBreak] } := by
  simp [Transport.drain, Transport.startBreak, Transport.record, Transport.avail]

theorem Buf.ofBytes_nil : Buf.ofBytes [] = Buf.zero := (Buf.store_zero []).symm

/-- The budget of a frame with `n` data bytes (R137): the length register holds `4 + n`. -/
theorem timeoutBudget_of_frame {n : BitVec 4} (hn : n.toNat ≤ 8) (baud : BitVec 32) (cfg : Config) :
    timeoutBudget (BitVec.ofNat 4 (4 + n.toNat)) baud cfg =
      BitVec.ofNat 32 ((4 + n.toNat) * (10 * 1000000 / baud.toNat) * cfg.timeoutPct / 100) := by
  have hlen : (BitVec.ofNat 4 (4 + n.toNat)).toNat = 4 + n.toNat := by
    rw [BitVec.toNat_ofNat]; omega
  rw [timeoutBudget, timeoutNat, hlen, byteTimeUs]

/-- Settles O28: the operand has `n` bytes, which gives the lengths and the budget. -/
theorem mreqAccepted : Obligations.MreqAccepted := by
  intro v id n arg s hn hs ho data
  have hlen : data.length = n.toNat := operandData_length n arg
  rw [exec_mreq hn, request_of_open _ v id n _ hs ho, ← drain_startBreak, ← timeoutBudget_of_frame hn, Buf.ofBytes_nil,
    ← hlen]
  rfl

/-- Settles O29: the expected length `3 + n + 1` gives the budget. -/
theorem srespAccepted : Obligations.SrespAccepted := by
  intro v id n s hn hs ho
  rw [exec_sresp hn, request_of_open _ v id n _ hs ho, ← drain_startBreak, ← timeoutBudget_of_frame hn, Buf.ofBytes_nil,
    show 4 + n.toNat = 3 + n.toNat + 1 by omega]
  rfl

/-! Which commands answer a next state (R145, R200). -/

/-- A request with `n <= 8` answers a next state, but when it is accepted while the transport is closed. -/
theorem request_next (kind : FrameType) (v : Version) (id : BitVec 6) (n : BitVec 4) (data : List Byte) {s : State}
    (h : ¬(s.blk.state = stIdle ∧ s.tp.isOpen = false)) : ∃ t, request kind v id n data s = .next t := by
  obtain ⟨-, e⟩ | ⟨-, -, e⟩ | ⟨hs, ho, -⟩ := request_cases kind v id n data s
  · exact ⟨_, e⟩
  · exact ⟨_, e⟩
  · exact absurd ⟨hs, ho⟩ h

/-- The model fault of R145, for either request. -/
theorem exec_of_accepts_closed {i : Instr} {s : State} (h : accepts i s) (ho : s.tp.isOpen = false) :
    exec i s = .fault .transportClosed := by
  obtain ⟨hr, hw, hs⟩ := h
  cases i with
  | mreq v id n arg => exact (exec_mreq ((lengthOk_iff n).mp hw) ..).trans (request_of_closed _ v id n _ hs ho)
  | sresp v id n => exact (exec_sresp ((lengthOk_iff n).mp hw) ..).trans (request_of_closed _ v id n _ hs ho)
  | openTp | closeTp | step | getst | geterr | clrerr | rstsm | getfrm | pid | chk => cases hr

/-- Every other command answers a next state, a reserved form included. -/
theorem exec_next {i : Instr} {s : State} (h : ¬(accepts i s ∧ s.tp.isOpen = false)) : ∃ t, exec i s = .next t := by
  cases hw : i.wf with
  | false => exact ⟨_, exec_of_not_wf hw s⟩
  | true =>
    cases i with
    | mreq v id n arg =>
      rw [exec_mreq ((lengthOk_iff n).mp hw)]
      exact request_next _ v id n _ fun ⟨hs, ho⟩ => h ⟨⟨rfl, hw, hs⟩, ho⟩
    | sresp v id n =>
      rw [exec_sresp ((lengthOk_iff n).mp hw)]
      exact request_next _ v id n _ fun ⟨hs, ho⟩ => h ⟨⟨rfl, hw, hs⟩, ho⟩
    | openTp baud => exact ⟨_, exec_openTp ((baudOk_iff baud).mp hw) s⟩
    | chk v id n arg => exact ⟨_, exec_chk ((lengthOk_iff n).mp hw) v id arg s⟩
    | closeTp | step | getst | geterr | clrerr | rstsm | getfrm | pid => exact ⟨_, rfl⟩

/-- Settles O32: a command that answers no next state answers the fault, never a refusal. -/
theorem everyCommandRuns : Obligations.EveryCommandRuns := by
  intro i s
  by_cases h : accepts i s ∧ s.tp.isOpen = false
  · have e := exec_of_accepts_closed h.1 h.2
    rw [e]
    exact ⟨iff_of_false nofun (not_not.mpr h), nofun⟩
  · obtain ⟨t, e⟩ := exec_next h
    rw [e]
    exact ⟨iff_of_true ⟨t, rfl⟩ h, nofun⟩

/-! STEP, by the state it finds (R150 to R157). -/

theorem advance_of_quiet {s : State} (h : s.blk.state = stOff ∨ s.blk.state = stIdle ∨ s.blk.state = stDone) :
    advance s = s := by
  rcases h with h | h | h <;> simp [advance, h]

theorem advance_of_break {s : State} (h : s.blk.state = stBreak) : advance s = stepBreak s := by
  simp [advance, h]

theorem advance_of_body {s : State} (h : s.blk.state = stBody) : advance s = concludeBody (receive s) := by
  simp [advance, h]

theorem advance_of_illegal {s : State} (h : ¬ s.blk.legalState) : advance s = enterError errMisc s := by
  simp only [Block.legalState, List.mem_cons, List.not_mem_nil, or_false, not_or] at h
  obtain ⟨hoff, hidle, hbreak, hbody, hdone⟩ := h
  simp only [advance, hoff, hidle, hbreak, hbody, hdone, if_false]

/-- Settles O33, by `advance_of_quiet`. -/
theorem stepQuiescent : Obligations.StepQuiescent := by
  intro s h
  rw [exec_step, advance_of_quiet h]
  rfl

/-- Settles O37, by `advance_of_illegal`. -/
theorem stepOnIllegalState : Obligations.StepOnIllegalState := by
  intro s h
  rw [exec_step, advance_of_illegal h]
  rfl

/-- STEP past the budget while the break is not done (R153). -/
theorem stepBreak_of_late {s : State} (hb : s.tp.breakDone = false) (ht : timedOut s = true) :
    stepBreak s = enterError errTimeout s := by
  simp [stepBreak, hb, ht]

/-- STEP within the budget while the break is not done (R153). -/
theorem stepBreak_of_waiting {s : State} (hb : s.tp.breakDone = false) (ht : timedOut s = false) : stepBreak s = s := by
  simp [stepBreak, hb, ht]

/-- Settles O34: the break first, then the time. -/
theorem stepInBreak : Obligations.StepInBreak := by
  intro s hs
  rw [exec_step]
  refine ⟨fun hb => ?_, fun hb hlate => ?_, fun hb hintime => ?_⟩
  · rw [advance_of_breakDone hs hb]
    rfl
  · rw [advance_of_break hs, stepBreak_of_late hb ((timedOut_iff s).mpr hlate)]
    rfl
  · rw [advance_of_break hs, stepBreak_of_waiting hb ((timedOut_false_iff s).mpr hintime), ← hs]
    rfl

/-- The whole reception part of STEP in BODY (R154), the count as a sum of naturals. -/
theorem receive_eq (s : State) : receive s = { s with
    blk := { s.blk with
      rxBuf := s.blk.rxBuf.store s.blk.rxCount.toNat (s.tp.rxFifo.take (readCount s))
      rxCount := BitVec.ofNat 4 (s.blk.rxCount.toNat + readCount s) }
    tp := { s.tp with
      rxFifo := s.tp.rxFifo.drop (readCount s)
      actions := s.tp.actions ++ [.tpRead (readCount s)] } } := by
  rw [BitVec.ofNat_add, BitVec.ofNat_toNat, BitVec.setWidth_eq]
  rfl

/-- A reception stays within the length of the frame (R33, R154). -/
theorem receive_rxCount_le {s : State} (h : s.blk.rxCount.toNat ≤ s.blk.rxLen.toNat) :
    (receive s).blk.rxCount.toNat ≤ (receive s).blk.rxLen.toNat := by
  have hread : readCount s ≤ s.blk.rxLen.toNat - s.blk.rxCount.toNat := Nat.min_le_right ..
  rw [receive_rxCount]
  change _ ≤ s.blk.rxLen.toNat
  omega

/-- Error entry with no bit is the plain move to DONE. -/
theorem enterError_zero (s : State) : enterError 0x00 s = setState stDone s := by
  have hlatch : latch 0x00 s = s := by simp [latch, latchError]
  rw [enterError, hlatch]

/-- The conclusion of a complete frame is error entry with the bit of its check, which is none for OK (R155, R206). -/
theorem concludeFrame_eq (s : State) : concludeFrame s = enterError (frameCheckError (checkFrame s.blk)) s := by
  obtain ⟨hf, e⟩ | ⟨hf, e⟩ | ⟨hf, e⟩ := concludeFrame_cases s <;> rw [e, hf]
  · exact (enterError_zero s).symm
  · rfl
  · rfl

/-- A frame that is incomplete past the budget (R156). -/
theorem concludeBody_of_late {s : State} (hle : s.blk.rxCount.toNat ≤ s.blk.rxLen.toNat) (hc : s.blk.rxCount ≠ s.blk.rxLen)
    (ht : timedOut s = true) : concludeBody s = enterError errTimeout s := by
  have hlt : s.blk.rxCount.toNat < s.blk.rxLen.toNat := Nat.lt_of_le_of_ne hle fun e => hc (BitVec.eq_of_toNat_eq e)
  exact (if_neg hc).trans (if_pos ⟨hlt, ht⟩)

/-- A frame that is incomplete within the budget (R156). -/
theorem concludeBody_of_waiting {s : State} (hc : s.blk.rxCount ≠ s.blk.rxLen) (ht : timedOut s = false) :
    concludeBody s = s :=
  (if_neg hc).trans (if_neg fun h => Bool.false_ne_true (ht.symm.trans h.2))

/-- Settles O35: the reception first, then the completion, then the time. -/
theorem stepInBody : Obligations.StepInBody := by
  intro s hs hle k r tp
  let w : State := { s with blk := r, tp := tp }
  have hrec : receive s = w := receive_eq s
  have hstep : exec .step s = .next (respondState (concludeBody w)) := by rw [exec_step, advance_of_body hs, hrec]
  have hwle : w.blk.rxCount.toNat ≤ w.blk.rxLen.toNat := hrec ▸ receive_rxCount_le hle
  refine ⟨fun hc => ?_, fun hc hlate => ?_, fun hc hintime => ?_⟩
  · have hconclude : concludeBody w = enterError (frameCheckError (checkFrame r)) w := (if_pos hc).trans (concludeFrame_eq w)
    rw [hstep, hconclude]
    cases checkFrame r with
    | ok => exact congrArg (Host.Outcome.next ∘ respondState) (enterError_zero w)
    | echo | checksum => rfl
  · rw [hstep, concludeBody_of_late (s := w) hwle hc ((timedOut_iff s).mpr hlate)]
    rfl
  · rw [hstep, concludeBody_of_waiting (s := w) hc ((timedOut_false_iff s).mpr hintime), ← hs]
    rfl

/-- Once STEP in BODY has received, it writes at most the state and the error (R155, R156). -/
theorem Advance.of_body {s u : State} (hu : Advance s u) (hs : s.blk.state = stBody) : u.tp = (receive s).tp ∧
    ∃ state error, u.blk = { (receive s).blk with state := state, error := error } := by
  cases hu with
  | quiet h => rw [hs] at h; exact absurd h (by decide)
  | toBody h | breakLate h | breakWaits h => exact absurd (h.symm.trans hs) (by decide)
  | illegal h => rw [hs] at h; exact absurd h (by decide)
  | bodyOk | bodyEcho | bodyChecksum | bodyLate | bodyWaits => exact ⟨rfl, _, _, rfl⟩

/-- The rx buffer after a reception, byte by byte (R154). -/
theorem receive_rxBuf_at (s : State) {j : Nat} (hj : j < 12) : (receive s).blk.rxBuf.at j =
    if s.blk.rxCount.toNat ≤ j ∧ j < s.blk.rxCount.toNat + readCount s then
      s.tp.rxFifo.getD (j - s.blk.rxCount.toNat) 0x00
    else s.blk.rxBuf.at j := by
  have hlen : (s.tp.rxFifo.take (readCount s)).length = readCount s := List.length_take_of_le (Nat.min_le_left ..)
  rw [receive_blk]
  dsimp only
  rw [Buf.at_store _ _ _ hj, hlen]
  split
  next h =>
    rw [List.getD_eq_getElem?_getD, List.getElem?_take_of_lt (by omega), ← List.getD_eq_getElem?_getD]
  next => rfl

/-- Settles O36: what STEP in BODY does to the count and the buffers it does in the reception. -/
theorem receptionFillsInOrder : Obligations.ReceptionFillsInOrder := by
  intro s t hs hf h k
  cases h
  obtain ⟨htp, state, error, hblk⟩ := (advance_inv s).of_body hs
  rw [respondState_blk, respondState_tp, htp, hblk]
  exact ⟨receive_rxCount s, rfl, rfl, fun j hj => receive_rxBuf_at s hj⟩

/-! The table of the state register (R161). -/

/-- The rows of the table that STEP takes. -/
theorem Advance.moves {s u : State} (hu : Advance s u) (hne : u.blk.state ≠ s.blk.state) :
    (s.blk.state = stBreak ∧ s.tp.breakDone = true ∧ u.blk.state = stBody) ∨
    (s.blk.state = stBreak ∧ s.tp.breakDone = false ∧ timedOut s = true ∧ u.blk.state = stDone) ∨
    (s.blk.state = stBody ∧ (u.blk.rxCount = u.blk.rxLen ∨ timedOut s = true) ∧ u.blk.state = stDone) ∨
    (¬ s.blk.legalState ∧ u.blk.state = stDone) := by
  cases hu with
  | quiet | breakWaits | bodyWaits => exact absurd rfl hne
  | toBody hs hb => exact .inl ⟨hs, hb, rfl⟩
  | breakLate hs hb ht => exact .inr (.inl ⟨hs, hb, ht, rfl⟩)
  | bodyOk hs hc | bodyEcho hs hc | bodyChecksum hs hc => exact .inr (.inr (.inl ⟨hs, .inl hc, rfl⟩))
  | bodyLate hs _ ht => exact .inr (.inr (.inl ⟨hs, .inr ht, rfl⟩))
  | illegal hs => exact .inr (.inr (.inr ⟨hs, rfl⟩))

/-- Settles O45: the rows of STEP by `Advance.moves`, each other row by the case of `Effect` that takes it. -/
theorem stateMovesAlongTheTable : Obligations.StateMovesAlongTheTable := by
  intro i s t h hne
  have ht := exec_inv h
  clear h
  cases ht with
  | ignored | cleared | read => exact absurd rfl hne
  | opened baud hi hb =>
    subst hi
    exact ⟨(baudOk_iff baud).mpr hb, .inl ⟨⟨baud, rfl⟩, rfl⟩⟩
  | closed hi =>
    subst hi
    exact ⟨rfl, .inr (.inl ⟨rfl, rfl⟩)⟩
  | toIdle hi =>
    subst hi
    exact ⟨rfl, .inr (.inr (.inl ⟨rfl, rfl⟩))⟩
  | acceptedMaster _ _ n _ hi hn hs | acceptedSlave _ _ n hi hn hs =>
    subst hi
    exact ⟨(lengthOk_iff n).mpr hn, .inr (.inr (.inr (.inl ⟨rfl, hs, rfl⟩)))⟩
  | rejected hr hw hs => exact ⟨hw, .inr (.inr (.inr (.inr (.inl ⟨hr, hs, rfl⟩))))⟩
  | stepped hi u hu =>
    subst hi
    refine ⟨rfl, .inr (.inr (.inr (.inr (.inr ?_))))⟩
    obtain hbody | hlate | hend | hillegal := hu.moves hne
    · exact .inl ⟨rfl, hbody⟩
    · exact .inr (.inl ⟨rfl, hlate⟩)
    · exact .inr (.inr (.inl ⟨rfl, hend⟩))
    · exact .inr (.inr (.inr ⟨rfl, hillegal⟩))

/-! Polling (R158, R178, R180). -/

/-- A STEP of the host that comes past the budget, with no reset before it, finds the block as it was and the transaction timed
out. -/
theorem issue_step_sampled_late {d : Draw} {s : State} (hd : d.noReset) (hl : d.late s.blk) :
    ∃ w, issue .step d s = .next (respondState (advance w)) ∧ w.blk = s.blk ∧ timedOut w = true := by
  have hblk := envSteps_blk_of_noReset hd s
  refine ⟨_, issue_step_next d s, hblk, (timedOut_iff _).mpr ?_⟩
  dsimp only
  rw [hblk]
  exact hl

/-- STEP past the budget ends a transaction, or takes a completed break (R153, R155, R156, log 18). -/
theorem Advance.of_late {w u : State} (hu : Advance w u) (ht : timedOut w = true) (hin : w.blk.inTransaction)
    (hle : w.blk.rxCount.toNat ≤ w.blk.rxLen.toNat) :
    u.blk.state = stDone ∨ (w.blk.state = stBreak ∧ u.blk = { w.blk with state := stBody }) := by
  cases hu with
  | quiet h =>
    rcases hin with hin | hin <;> rw [hin] at h <;> exact absurd h (by decide)
  | toBody h => exact .inr ⟨h, rfl⟩
  | breakWaits _ _ hintime => exact absurd (ht.symm.trans hintime) (by decide)
  | bodyWaits _ hc hintime =>
    have hfalse := timedOut_false_of_lt hc (receive_rxCount_le hle) hintime
    exact absurd (ht.symm.trans hfalse) (by decide)
  | breakLate | bodyOk | bodyEcho | bodyChecksum | bodyLate | illegal => exact .inl rfl

/-- A STEP of the host past the budget ends the transaction, or takes a completed break. -/
theorem issue_step_of_late {d : Draw} {s t : State} (hin : s.blk.inTransaction) (hle : s.blk.rxCount.toNat ≤ s.blk.rxLen.toNat)
    (hd : d.noReset) (hl : d.late s.blk) (h : issue .step d s = .next t) :
    t.blk.state = stDone ∨ (s.blk.state = stBreak ∧ t.blk = { s.blk with state := stBody }) := by
  obtain ⟨w, hw, hblk, ht⟩ := issue_step_sampled_late hd hl
  cases hw.symm.trans h
  rw [← hblk] at hin hle ⊢
  exact (advance_inv w).of_late ht hin hle

/-- Settles O38: the late STEP that takes the break leaves the count, the lengths and the budget, so the next one is late in BODY,
which ends there. -/
theorem lateStepsEndTheTransaction : Obligations.LateStepsEndTheTransaction := by
  intro s t d hin hle hd hl h
  refine (issue_step_of_late hin hle hd hl h).imp_right fun ⟨hs, hblk⟩ => ⟨hs, by rw [hblk], fun d' u hd' hl' hu => ?_⟩
  have hbody : t.blk.state = stBody := by rw [hblk]
  have hle' : t.blk.rxCount.toNat ≤ t.blk.rxLen.toNat := by rw [hblk]; exact hle
  have hlate : d'.late t.blk := by rw [hblk]; exact hl'
  refine (issue_step_of_late (.inr hbody) hle' hd' hlate hu).resolve_right fun ⟨hbreak, _⟩ => ?_
  exact absurd (hbody.symm.trans hbreak) (by decide)

/-- The transaction of `b` is in flight in `c`: the frame's lengths hold, and the time registers are those of `b` (R32, R33). -/
structure Block.InFlightSince (b c : Block) : Prop where
  inTransaction : c.inTransaction
  framed : c.framed
  tStart : c.tStart = b.tStart
  timeoutUs : c.timeoutUs = b.timeoutUs

theorem Block.InFlightSince.late {b c : Block} (h : b.InFlightSince c) {d : Draw} (hl : d.late b) : d.late c := by
  rw [Draw.late, h.tStart, h.timeoutUs]
  exact hl

/-- STEP ends a transaction or leaves it in flight, with its time registers (R32, R150 to R156). -/
theorem Advance.of_inTransaction {w u : State} (hu : Advance w u) (hin : w.blk.inTransaction) (hf : w.blk.framed) :
    u.blk.state = stDone ∨ w.blk.InFlightSince u.blk := by
  cases hu with
  | quiet | breakWaits => exact .inr ⟨hin, hf, rfl, rfl⟩
  | toBody => exact .inr ⟨.inr rfl, hf, rfl, rfl⟩
  | bodyWaits hs => exact .inr ⟨.inr hs, framed_receive hf, rfl, rfl⟩
  | breakLate | bodyOk | bodyEcho | bodyChecksum | bodyLate | illegal => exact .inl rfl

/-- A STEP of the host ends a transaction or leaves it in flight, when no reset comes before it. -/
theorem issue_step_of_inTransaction {d : Draw} {s t : State} (hin : s.blk.inTransaction) (hf : s.blk.framed) (hd : d.noReset)
    (h : issue .step d s = .next t) : t.blk.state = stDone ∨ s.blk.InFlightSince t.blk := by
  obtain ⟨w, hw, hblk, -⟩ := issue_step_sampled hd s
  cases hw.symm.trans h
  rw [← hblk] at hin hf ⊢
  exact (advance_inv w).of_inTransaction hin hf

/-- Polling with these draws finishes, and the state is DONE. -/
def PollsToDone (ds : List Draw) (s : State) : Prop := ∃ t, pollDone ds s = .finished () t ∧ t.blk.state = stDone

/-- A poll answers [DONE], which ends the polling in DONE, or the polling goes on (R150, R178). -/
theorem PollsToDone.cons {d : Draw} {ds : List Draw} {s : State} (hr : s.response ≠ [stDone])
    (hnext : ∀ t, issue .step d s = .next t → t.blk.state ≠ stDone → t.response ≠ [stDone] → PollsToDone ds t) :
    PollsToDone (d :: ds) s := by
  obtain ⟨t, h, hresp⟩ : ∃ t, issue .step d s = .next t ∧ t.response = [t.blk.state] := ⟨_, issue_step_next d s, rfl⟩
  rw [PollsToDone, pollDone_cons d ds hr h]
  by_cases hdone : t.blk.state = stDone
  · exact ⟨t, pollDone_done ds (by rw [hresp, hdone]), hdone⟩
  · exact hnext t h hdone (by rw [hresp]; exact fun e => hdone (List.head_eq_of_cons_eq e))

/-- Two polls past the budget reach DONE (R158, log 18). -/
theorem PollsToDone.of_late {s : State} {d1 d2 : Draw} (after : List Draw) (hin : s.blk.inTransaction)
    (hle : s.blk.rxCount.toNat ≤ s.blk.rxLen.toNat) (hr : s.response ≠ [stDone]) (hd1 : d1.noReset) (hd2 : d2.noReset)
    (hl1 : d1.late s.blk) (hl2 : d2.late s.blk) : PollsToDone (d1 :: d2 :: after) s := by
  refine .cons hr fun t ht hne hr' => ?_
  obtain ⟨-, -, hend⟩ := (lateStepsEndTheTransaction s t d1 hin hle hd1 hl1 ht).resolve_left hne
  exact .cons hr' fun u hu hne' _ => absurd (hend d2 u hd2 hl2 hu) hne'

/-- Settles O56, by induction on the earlier polls: each ends the polling, or leaves the transaction in flight with its budget. -/
theorem pollingReachesDone : Obligations.PollingReachesDone := by
  intro s before d1 d2 after hin hf hr hbefore hd1 hd2 hl1 hl2
  induction before generalizing s with
  | nil =>
    obtain ⟨-, -, -, hle⟩ := hf
    exact PollsToDone.of_late after hin hle hr hd1 hd2 hl1 hl2
  | cons d before ih =>
    obtain ⟨hd, hbefore⟩ := List.forall_mem_cons.mp hbefore
    refine PollsToDone.cons hr fun t ht hne hr' => ?_
    have h := (issue_step_of_inTransaction hin hf hd ht).resolve_left hne
    exact ih t h.inTransaction h.framed hr' hbefore (h.late hl1) (h.late hl2)

end Sys2Proof.Machine

/-! PROOFS of the family 42_status. The status registers' commands (R170 to R172), the read-out of a frame (R174), and the blocking
sequences on a machine that is not IDLE (R178, R179, R181). -/

namespace Sys2Proof.Machine

/-! A blocking sequence whose request is rejected (R139, R181). -/

/-- A request of the host outside IDLE is rejected and answers [DONE] (R139). -/
theorem issueFor_request_of_not_idle {i : Instr} {kind : FrameType} {v : Version} {id : BitVec 6} {n : BitVec 4}
    {data : List Byte} (hi : ∀ s, exec i s = request kind v id n data s) (now : BitVec 32) {s : State}
    (hs : s.blk.state ≠ stIdle) : issueFor i ⟨[], now⟩ s = .finished [stDone] (rejectRequest { s with now := now }) := by
  refine issueFor_of_next (t := rejectRequest { s with now := now }) ?_
  rw [issue_eq (decode_encode i), hi]
  exact request_of_not_idle kind v id n data hs

/-- After a rejected request there is nothing to poll for: the response is [DONE] already (R139, R178). -/
theorem pollDone_rejectRequest (polls : List Draw) (s : State) :
    pollDone polls (rejectRequest s) = .finished () (rejectRequest s) :=
  pollDone_done polls rfl

/-- Settles O55: the request is rejected, so both sequences go straight to GETERR, and SRESPB on to GETFRM. -/
theorem blockingOutsideIdleEndsAtOnce : Obligations.BlockingOutsideIdleEndsAtOnce := by
  rintro v id n arg ⟨_, t0⟩ ⟨_, t1⟩ ⟨_, t2⟩ polls s hn hs rfl rfl rfl blk
  have hmreq := issueFor_request_of_not_idle (exec_mreq hn v id arg) t0 hs
  have hsresp := issueFor_request_of_not_idle (exec_sresp hn v id) t0 hs
  constructor
  · simp only [mreqb, hmreq, Blocking.finished_andThen, pollDone_rejectRequest, issueFor_geterr]
    rfl
  · simp only [srespb, hsresp, Blocking.finished_andThen, pollDone_rejectRequest, issueFor_geterr, issueFor_getfrm]
    rfl

/-! The status commands (R170 to R172). -/

/-- Settles O39: both commands only put a register on the response port. -/
theorem statusReadCommands : Obligations.StatusReadCommands := fun _ => ⟨rfl, rfl⟩

/-- Settles O40: the command is the clearing of the register, with an empty response. -/
theorem clrerrCommand : Obligations.ClrerrCommand := fun _ => rfl

/-! The read-out of a frame (R174). -/

theorem frameData_of_master {b : Block} (h : b.frameType = typeMaster) : frameData b = b.txBuf.slice 3 b.numData.toNat :=
  if_pos h

theorem frameData_of_not_master {b : Block} (h : b.frameType ≠ typeMaster) : frameData b = b.rxBuf.slice 3 b.numData.toNat :=
  if_neg h

/-- Settles O41, by the type register, which chooses the buffer. -/
theorem getfrmCommand : Obligations.GetfrmCommand := by
  intro s
  constructor
  · intro hmaster
    rw [exec_getfrm, frameResponse, frameData_of_master hmaster, hmaster]
    rfl
  · intro hslave
    rw [exec_getfrm, frameResponse, frameData_of_not_master hslave]
    rfl

end Sys2Proof.Machine

/-! PROOFS of the family 60_exceptions. The error register: what clears it (R201), and what error entry does and is caused by (R202
to R206). -/

namespace Sys2Proof.Machine

/-! What a command makes of the error register (R201). -/

/-- STEP only ORs into the error register (R150 to R157). -/
theorem Advance.error_latched {s u : State} (hu : Advance s u) : ∃ e, u.blk.error = latchError s.blk.error e := by
  cases hu with
  | breakLate | bodyEcho | bodyChecksum | bodyLate | illegal => exact ⟨_, rfl⟩
  | quiet | toBody | breakWaits | bodyOk | bodyWaits => exact ⟨0x00, BitVec.or_zero.symm⟩

/-- A command other than CLRERR and an accepted request only ORs into the error register (R201). -/
theorem Effect.error_latched {i : Instr} {s t : State} (ht : Effect i s t) (hi : i ≠ .clrerr) (ha : ¬ accepts i s) :
    ∃ e, t.blk.error = latchError s.blk.error e := by
  cases ht with
  | ignored | opened | closed | toIdle | read => exact ⟨0x00, BitVec.or_zero.symm⟩
  | rejected => exact ⟨_, rfl⟩
  | stepped _ _ hu => exact hu.error_latched
  | cleared h => exact absurd h hi
  | acceptedMaster v id n arg h hn hs => exact absurd ⟨h ▸ rfl, h ▸ (lengthOk_iff n).mpr hn, hs⟩ ha
  | acceptedSlave v id n h hn hs => exact absurd ⟨h ▸ rfl, h ▸ (lengthOk_iff n).mpr hn, hs⟩ ha

/-- An accepted request leaves the error register clear (R140). -/
theorem Effect.error_of_accepts {i : Instr} {s t : State} (ht : Effect i s t) (ha : accepts i s) : t.blk.error = 0x00 := by
  obtain ⟨hrequest, hwf, hidle⟩ := ha
  cases ht with
  | acceptedMaster | acceptedSlave => exact acceptedBlock_error ..
  | ignored h => exact absurd hwf (Bool.eq_false_iff.mp h)
  | rejected _ _ h => exact absurd hidle h
  | read _ h => exact absurd hrequest (Bool.eq_false_iff.mp h)
  | opened _ h | closed h | stepped h | cleared h | toIdle h =>
    subst h
    cases hrequest

/-- What is latched stays (R201). -/
theorem and_latchError (error e : Byte) : error &&& latchError error e = error := by
  ext k hk
  rw [latchError, BitVec.getElem_and, BitVec.getElem_or]
  exact inf_sup_self

/-! The statements. -/

/-- Settles O46: the bits are kept by `Effect.error_latched`, and cleared by CLRERR's own equation or `Effect.error_of_accepts`. -/
theorem errorsAreClearedOnlyBy : Obligations.ErrorsAreClearedOnlyBy := by
  intro i s t h
  have ht := exec_inv h
  refine ⟨fun hi ha => ?_, ?_⟩
  · obtain ⟨e, he⟩ := ht.error_latched hi ha
    rw [he, and_latchError]
  · rintro (rfl | ha)
    · cases h
      rfl
    · exact ht.error_of_accepts ha

/-- Settles O47: of the cases of a command and of STEP only a rejected request and the error entries of STEP set a new bit, and each
carries its cause. -/
theorem errorEntry : Obligations.ErrorEntry := by
  intro i s t h hnew
  have ht := exec_inv h
  clear h
  cases ht with
  | ignored | opened | closed | toIdle | read => exact absurd BitVec.or_self hnew
  | acceptedMaster | acceptedSlave | cleared => exact absurd BitVec.or_zero hnew
  | rejected hr _ hs => exact ⟨rfl, rfl, .inl ⟨rfl, hr, hs⟩⟩
  | stepped hi u hu =>
    cases hu with
    | quiet | toBody | breakWaits | bodyOk | bodyWaits => exact absurd BitVec.or_self hnew
    | bodyEcho hs hc hf =>
      exact ⟨rfl, rfl, .inr (.inl ⟨rfl, hi, hs, hc, (checkFrame_eq_echo_iff _).mp hf⟩)⟩
    | breakLate hs hb hlate => exact ⟨rfl, rfl, .inr (.inr (.inl ⟨rfl, hi, hlate, .inl ⟨hs, hb⟩⟩))⟩
    | bodyLate hs hc hlate => exact ⟨rfl, rfl, .inr (.inr (.inl ⟨rfl, hi, hlate, .inr ⟨hs, hc⟩⟩))⟩
    | bodyChecksum hs hc hf =>
      exact ⟨rfl, rfl, .inr (.inr (.inr (.inl ⟨rfl, hi, hs, hc, (checkFrame_eq_checksum_iff _).mp hf⟩)))⟩
    | illegal hs => exact ⟨rfl, rfl, .inr (.inr (.inr (.inr ⟨rfl, hi, hs⟩)))⟩

end Sys2Proof.Machine

/-! PROOFS of the family 70_reset_and_hazards. The value of every state element of the block at reset (R35, R230). -/

namespace Sys2Proof.Machine

/-- A buffer at reset holds twelve bytes 0x00 (R30, R35). -/
theorem Buf.toList_zero : Buf.zero.toList = List.replicate 12 0x00 := Vector.toList_replicate

/-- Settles O12: a reset writes the block of `State.reset`, whose registers are read off its definition and whose buffers are zero. -/
theorem resetValues : Obligations.ResetValues := by
  have hreset (s : State) : (envSteps [.coreReset] s).blk = State.reset.blk := by
    obtain ⟨_, hblk, _⟩ := environmentAndBlockAreApart s []
    exact hblk
  exact ⟨hreset, rfl, rfl, rfl, rfl, rfl, rfl, rfl, rfl, rfl, rfl, rfl, rfl, Buf.toList_zero, Buf.toList_zero⟩

end Sys2Proof.Machine
